-- ==== Sys2Proof/Word.lean ====
section
/-! DEFINITION. The words of LPE: what the spec treats as bits, each at the one width the spec gives it
(00_scope R6, R7; 30_encoding R61, R66; 10_state R24, R25). -/

namespace Sys2Proof

/-- A 64-bit command word (R60, R61). -/
abbrev CommandWord := BitVec 64

/-- A 32-bit response word (R66). -/
abbrev ResponseWord := BitVec 32

/-- A 24-bit colour, red in bits 23:16, green in 15:8, blue in 7:0 (R25, R61). -/
abbrev Colour := BitVec 24

/-- A 24-bit wire word: the scaled channels in the order `WIRE_ORDER` names (R95). -/
abbrev WireWord := BitVec 24

/-- One 8-bit channel intensity (R61). -/
abbrev Channel := BitVec 8

/-- A pixel index as a command carries it, unsigned (R40, R61). -/
abbrev Index := BitVec 16

/-- The auxiliary field, two's complement (R61, R63). -/
abbrev Aux := BitVec 16

end Sys2Proof
end

