-- ==== Sys2Proof/Machine/Bits.lean ====
section
/-! DEFINITION. Bit-field, sign and rounding helpers (00_scope R7, R8). -/

namespace Sys2Proof

/-- `sint16(v)`: the two's-complement value of a 16-bit field (R7). -/
def sint16 (v : BitVec 16) : Int :=
  if v.toNat < 32768 then (v.toNat : Int) else (v.toNat : Int) - 65536

/-- `trunc(num / den)`: the quotient truncated toward zero (R8). -/
def trunc (num : Int) (den : Nat) : Int :=
  Int.tdiv num den

/-- `clamp(v, lo, hi)` (R8). -/
def clamp (v lo hi : Int) : Int :=
  if v < lo then lo else if hi < v then hi else v

/-- An integer of 0 .. 255 as a channel. -/
def channelOfInt (v : Int) : Channel :=
  BitVec.ofNat 8 v.toNat

/-- `r`, bits 23:16 of a colour (R61). -/
def red (c : Colour) : Channel :=
  c.extractLsb' 16 8

/-- `g`, bits 15:8 of a colour (R61). -/
def green (c : Colour) : Channel :=
  c.extractLsb' 8 8

/-- `b`, bits 7:0 of a colour (R61). -/
def blue (c : Colour) : Channel :=
  c.extractLsb' 0 8

/-- `rgb(r, g, b)`: red most significant (R9). -/
def rgbOf (r g b : Channel) : Colour :=
  r ++ g ++ b

/-- A channel function applied to each of the three channels alike (R80, R91). -/
def mapChannels (f : Channel → Channel) (c : Colour) : Colour :=
  rgbOf (f (red c)) (f (green c)) (f (blue c))

end Sys2Proof
end

