-- ==== Sys2Proof/Config.lean ====
section
/-! DEFINITION. What an implementation fixes when it is built (00_scope R6, 10_state R33), and the one free value
(93_implementation_defined V4). -/

namespace Sys2Proof

/-- The channel order on the wire, first letter most significant (R6, R95). -/
inductive WireOrder where
  | rgb | rbg | grb | gbr | brg | bgr
  deriving DecidableEq, Repr

/-- The unspecified latencies of R160 (V2): the clk cycles a command other than RENDER keeps LPE BUSY, one constant
for each kind of answer. -/
structure Latency where
  set : Nat
  fill : Nat
  setbr : Nat
  snap : Nat
  setp : Nat
  wheel : Nat
  outOfRange : Nat
  illegal : Nat
  deriving DecidableEq, Repr

/-- The `Config` record of R6, with the implementation constants `L_START`, `L_END` (R104) and the latencies (R160)
beside it. No command reads or writes it and reset does not touch it (R33). -/
structure Config where
  /-- `N`, the number of pixels. -/
  n : Nat
  /-- `T1`, clk cycles of bit-cell phase A. -/
  t1 : Nat
  /-- `T2`, clk cycles of bit-cell phase B. -/
  t2 : Nat
  /-- `T3`, clk cycles of bit-cell phase C. -/
  t3 : Nat
  /-- `T_LATCH`, clk cycles of the latch gap. -/
  tLatch : Nat
  /-- `T_SETTLE`, clk cycles of the settle time. -/
  tSettle : Nat
  /-- `WIRE_ORDER`. -/
  wireOrder : WireOrder
  /-- `CAN_UNDERRUN`. -/
  canUnderrun : Bool
  /-- `F_CLK` in hertz, where the platform sets it; no rule reads it (R6, V11). -/
  fClk : Option Nat
  /-- `L_START`, the lead-in of R104 (V1). -/
  lStart : Nat
  /-- `L_END`, the lead-out of R104 (V1). -/
  lEnd : Nat
  /-- The latencies of R160 (V2). -/
  latency : Latency
  deriving DecidableEq, Repr

/-- Every latency is at least 1 (R160). -/
abbrev Latency.Valid (l : Latency) : Prop :=
  1 ≤ l.set ∧ 1 ≤ l.fill ∧ 1 ≤ l.setbr ∧ 1 ≤ l.snap ∧ 1 ≤ l.setp ∧ 1 ≤ l.wheel ∧ 1 ≤ l.outOfRange ∧ 1 ≤ l.illegal

/-- The constraints of R6 and R98; a record that breaks one is not a configuration of LPE (V7). -/
def Config.valid (c : Config) : Bool :=
  decide ((1 ≤ c.n ∧ c.n ≤ 65536) ∧ (1 ≤ c.t1 ∧ 1 ≤ c.t2 ∧ 1 ≤ c.t3) ∧ (c.t3 < c.t1 + c.t2 ∧ c.t1 < c.t2 + c.t3) ∧
    1 ≤ c.tLatch ∧ c.latency.Valid)

/-- The test configuration `TC0` of R6. `L_START`, `L_END` and the latencies, which `TC0` does not give, are
DESIGN CHOICE 0, 0 and 1 (log 2; unsafe for a claim that leans on them). -/
def Config.tc0 : Config where
  n := 4
  t1 := 1
  t2 := 1
  t3 := 1
  tLatch := 5
  tSettle := 2
  wireOrder := .grb
  canUnderrun := true
  fClk := none
  lStart := 0
  lEnd := 0
  latency := ⟨1, 1, 1, 1, 1, 1, 1, 1⟩

/-- FREE VALUE (V4, log 8): what `rsp_data` carries in a clock cycle in which `rsp_valid` is 0. It has no body,
so no proof can see it. -/
opaque Config.freeRspData : Nat → ResponseWord

end Sys2Proof
end

