-- ==== Sys2Proof/Syntax.lean ====
section
/-! DEFINITION. The syntax of LPE-CMD: the four fields of a command word and their formats (30_encoding R61, R62),
the seven commands (R64, opcode_table.json) and the ways a word can be illegal (R68). -/

namespace Sys2Proof

/-- The four fields of a command word, at the same place in every command (R61). -/
structure Fields where
  op : BitVec 8
  aux : Aux
  idx : Index
  rgb : Colour
  deriving DecidableEq, Repr

/-- The formats of R62, named for the fields they use. -/
inductive Format where
  | ic | c | a | i | aic | z
  deriving DecidableEq, Repr

/-- The seven commands, one constructor for each row of spec/opcode_table.json, operands in the order of the
assembler syntax of R71. -/
inductive Instr where
  /-- `SET idx, colour` (R81). -/
  | set (idx : Index) (rgb : Colour)
  /-- `FILL colour` (R82). -/
  | fill (rgb : Colour)
  /-- `SETBR factor` (R83). -/
  | setbr (aux : Aux)
  /-- `SNAP idx` (R84). -/
  | snap (idx : Index)
  /-- `SETP idx, colour, pct` (R90). -/
  | setp (idx : Index) (rgb : Colour) (pct : Aux)
  /-- `RENDER` (R102). -/
  | render
  /-- `WHEEL pos` (R121). -/
  | wheel (pos : Aux)
  deriving DecidableEq, Repr

/-- Why a word is illegal (R65, R68): an unassigned `op`, or a nonzero reserved field, the first one from the top. -/
inductive Illegal where
  | unknownOp
  | reservedAux
  | reservedIdx
  | reservedRgb
  deriving DecidableEq, Repr

end Sys2Proof
end

