-- ==== Sys2Proof/Machine/State.lean ====
section
/-! DEFINITION. The state of LPE at a clk cycle (10_state R20 to R34) and its value right after a reset edge (R34, R151),
with the reasons a step can stop. One step of the model is one rising edge of `clk`. -/

namespace Sys2Proof.Machine

/-- Pixel memory (R25, R40): pairs of a pixel index and its raw colour, indices strictly rising, no pair whose
colour is what an unlisted cell reads as, `0x000000`, the reset value of every cell (R34; log 11, log 12). -/
abbrev Memory := List (Nat × Colour)

/-- `ENC.phase` (R26). -/
inductive Phase where
  | idle | data | latch | settle
  deriving DecidableEq, Repr

/-- `ENC.sub`, the phase inside the bit cell (R26). -/
inductive Sub where
  | a | b | c
  deriving DecidableEq, Repr

/-- `ENC`, the encoder sequencer (R26). While `phase` is `idle` nothing reads the other fields (V3, log 7). -/
structure Enc where
  phase : Phase
  /-- The index of the pixel being sent. -/
  pidx : Nat
  /-- The number of the wire-word bit being sent, 23 down to 0. -/
  bidx : Nat
  sub : Sub
  /-- The clk cycles already spent in the current `sub`, latch gap or settle time. -/
  cnt : Nat
  /-- The shift register; bit 23 is the bit being sent. -/
  shr : WireWord
  deriving DecidableEq, Repr

/-- What keeps `HS` BUSY. `left` counts the clk cycles still to come in this piece of work, the current one among
them; `under` is the underrun oracle's answer for the RENDER executing (R134). -/
inductive Work where
  /-- `rst` was sampled 1 at the last edge (R151). -/
  | inReset
  /-- The reset hold (R152). -/
  | hold (left : Nat)
  /-- The lead-in of a RENDER (R104). -/
  | leadIn (left : Nat) (under : Option Nat)
  /-- A RENDER whose encoder walks (R108). -/
  | sending (under : Option Nat)
  /-- The latency of a command (R160), or a RENDER's lead-out (R104): then the response. -/
  | finishing (left : Nat) (answer : ResponseWord)
  deriving DecidableEq, Repr

/-- `HS` (R30). -/
inductive Handshake where
  | ready
  | busy (work : Work)
  /-- The response word waits for delivery (R29). -/
  | resp (word : ResponseWord)
  deriving DecidableEq, Repr

/-- The input pins during one clk cycle (R27) and what the underrun oracle would answer to a RENDER accepted at the
edge that ends it (R134). -/
structure Pins where
  rst : Bool
  cmdValid : Bool
  cmdData : CommandWord
  rspReady : Bool
  underrun : Option Nat
  deriving DecidableEq, Repr

/-- Every input low: what the pins read beyond the end of the host's script (DESIGN CHOICE, log 4; safe, since every
longer script is a state too). -/
def Pins.quiet : Pins :=
  ⟨false, false, 0, false, none⟩

/-- The state of LPE (R20), with the inputs of the coming clk cycles (R33, log 4), the build-time configuration, which
no step changes (R33, log 1), and the model's own cycle counter (log 8). -/
structure State where
  /-- `Config` (R6). -/
  cfg : Config
  /-- `PIX` (R25). -/
  pix : Memory
  /-- `BRIGHT` (R24). -/
  bright : BitVec 16
  /-- `ENC` (R26). -/
  enc : Enc
  /-- `HS` (R30). -/
  hs : Handshake
  /-- The pins, this clk cycle's first. -/
  inputs : List Pins
  /-- Clk cycles gone by; only the free value reads it. -/
  cycle : Nat
  deriving DecidableEq, Repr

/-- Why a step ends in a fault. -/
inductive Fault where
  /-- Raised by the encoder when it would load the wire word of a cell at an index of N or more: `MemRead` is defined
  only below N (R9). Safe: no state of the invariant reaches it (log 13). -/
  | unpopulatedCell (index : Nat)
  deriving DecidableEq, Repr

/-- Why a step is refused. -/
inductive Refusal where
  /-- Raised by a refused arm of `exec`; there is none. Safe. -/
  | notModelled (mnemonic : String)
  /-- Raised by every step of a machine whose `Config` breaks a constraint of R6 or R98: it is no configuration of
  LPE (V7). Safe (log 14). -/
  | notAConfiguration
  deriving DecidableEq, Repr

/-- LPE right after an edge that sampled `rst = 1` (R34, R151), built with the configuration `c`. The fields of `ENC`
beside `phase` are unspecified (V3): DESIGN CHOICE zeros (log 7; unsafe for a claim that reads them). -/
def State.resetWith (c : Config) : State where
  cfg := c
  pix := []
  bright := 0x0100
  enc := ⟨.idle, 0, 0, .a, 0, 0⟩
  hs := .busy .inReset
  inputs := []
  cycle := 0

/-- The machine right after reset. Its configuration is the spec's test configuration `TC0` (DESIGN CHOICE, log 1;
unsafe for a claim that leans on it). -/
def State.reset : State :=
  State.resetWith Config.tc0

end Sys2Proof.Machine
end

