-- ==== Sys2Proof/Machine/Flags.lean ====
section
/-! DEFINITION. LPE has no flag, no condition code and no sticky error bit (10_state R23). What a command reports, it
reports once, in its response word: status codes and response words (30_encoding R66, R67), and the three errors
(60_exceptions R130, R131, R133, R134). -/

namespace Sys2Proof.Machine

/-- The status codes' names (R67). -/
inductive Status where
  | ok | outOfRange | timingViolation | illegalCommand
  deriving DecidableEq, Repr

/-- The status codes (R67). -/
def Status.code : Status → BitVec 8
  | .ok => 0x00
  | .outOfRange => 0x01
  | .timingViolation => 0x02
  | .illegalCommand => 0x03

/-- `status[7:0] ‖ data[23:0]` (R66). -/
def response (status : Status) (data : BitVec 24) : ResponseWord :=
  status.code ++ data

/-- The status byte of a response word (R66). -/
def statusOf (w : ResponseWord) : BitVec 8 :=
  w.extractLsb' 24 8

/-- The data field of a response word (R66). -/
def dataOf (w : ResponseWord) : BitVec 24 :=
  w.extractLsb' 0 24

/-- The errors of R130, each with the value it records (R131, R133, R134). -/
inductive Error where
  | outOfRange (idx : Index)
  | timingViolation (sent : Nat)
  | illegalCommand
  deriving DecidableEq, Repr

/-- `code(E)` (R132, R135). -/
def Error.status : Error → Status
  | .outOfRange _ => .outOfRange
  | .timingViolation _ => .timingViolation
  | .illegalCommand => .illegalCommand

/-- The `data` an error carries: the index zero-extended, the whole pixels sent, or 0 (R67, R135). -/
def Error.info : Error → BitVec 24
  | .outOfRange idx => idx.setWidth 24
  | .timingViolation sent => BitVec.ofNat 24 sent
  | .illegalCommand => 0

/-- The response that reports an error (R132). -/
def Error.response (e : Error) : ResponseWord :=
  Sys2Proof.Machine.response e.status e.info

end Sys2Proof.Machine
end

