-- ==== Sys2Proof/Machine/Ops.lean ====
section
/-! DEFINITION. The named operations over pixel memory, the handshake and the pins: the only ways the rest of the model
reads or writes State. `State.raise` is LPE's whole exception mechanism: there is no trap entry and no return
(60_exceptions R132, R138, R139). -/

namespace Sys2Proof.Machine

/-- The outcome of a step. -/
abbrev Out := Host.Outcome State Fault Refusal

/-! Pixel memory (20_memory R40, R47). -/

/-- The raw colour of a cell; an unlisted cell reads as its reset value `0x000000` (R34, R51). -/
def Memory.read : Memory → Nat → Colour
  | [], _ => 0
  | (a, v) :: m, i => if i = a then v else Memory.read m i

/-- Write one whole cell (R47). -/
def Memory.write : Memory → Nat → Colour → Memory
  | [], i, v => if v = 0 then [] else [(i, v)]
  | (a, w) :: m, i, v =>
    if i < a then (if v = 0 then (a, w) :: m else (i, v) :: (a, w) :: m)
    else if i = a then (if v = 0 then m else (i, v) :: m)
    else (a, w) :: Memory.write m i v

/-- Write the same colour to the cells `0 .. n-1`, in ascending order (R82, R87). -/
def Memory.fill (m : Memory) (n : Nat) (v : Colour) : Memory :=
  (List.range n).foldl (fun acc i => Memory.write acc i v) m

/-- The canonical form: indices strictly rising, and no cell listed that holds what an unlisted one reads as. -/
abbrev Memory.wf (m : Memory) : Prop :=
  m.Pairwise (fun x y => x.1 < y.1) ∧ ∀ c ∈ m, c.2 ≠ 0

/-- Only cells `0 .. n-1` are listed: the others do not exist (R49). -/
abbrev Memory.within (m : Memory) (n : Nat) : Prop :=
  ∀ c ∈ m, c.1 < n

/-! Updates of one field each. -/

/-- Replace `PIX`. -/
def State.setPix (s : State) (m : Memory) : State := { s with pix := m }

/-- Replace `BRIGHT`. -/
def State.setBright (s : State) (b : BitVec 16) : State := { s with bright := b }

/-- Replace `ENC`. -/
def State.setEnc (s : State) (e : Enc) : State := { s with enc := e }

/-- Replace `HS`. -/
def State.setHs (s : State) (h : Handshake) : State := { s with hs := h }

/-- The clk cycle is over: its pins are gone and the next one's stand first. -/
def State.advance (s : State) : State :=
  { s with inputs := s.inputs.tail, cycle := s.cycle + 1 }

/-- The end of the clk cycle, after whatever the edge did. -/
def endCycle : Out → Out
  | .next s => .next s.advance
  | .fault r => .fault r
  | .refused r => .refused r

/-! Cells and pins. -/

/-- The raw colour of cell `i`, where the hardware has it: `MemRead(i, 1)` is defined only below N (R9, R49). -/
def State.cell? (s : State) (i : Nat) : Option Colour :=
  if i < s.cfg.n then some (s.pix.read i) else none

/-- Write cell `i`: `PIX[i] <- v` (R9). -/
def State.setCell (s : State) (i : Nat) (v : Colour) : State :=
  s.setPix (s.pix.write i v)

/-- The input pins in this clk cycle (R27); beyond the end of the script every input is low (log 4). -/
def State.pins (s : State) : Pins :=
  s.inputs.headD .quiet

/-- The underrun oracle's answer to a RENDER accepted in this clk cycle: `none`, or some `k` below N and only where
`CAN_UNDERRUN` holds (R102, R134). A pin value outside that domain is no answer and reads as `none` (log 5). -/
def State.oracle (s : State) : Option Nat :=
  match s.pins.underrun with
  | none => none
  | some k => if s.cfg.canUnderrun = true ∧ k < s.cfg.n then some k else none

/-! Output pins that are functions of `HS` (R27, R30). -/

/-- `cmd_ready`. -/
def State.cmdReady (s : State) : Bool :=
  match s.hs with
  | .ready => true
  | .busy _ => false
  | .resp _ => false

/-- `rsp_valid`. -/
def State.rspValid (s : State) : Bool :=
  match s.hs with
  | .ready => false
  | .busy _ => false
  | .resp _ => true

/-- `rsp_data`: the response word while `rsp_valid` is 1, and else a free value (R29, V4). -/
def State.rspData (s : State) : ResponseWord :=
  match s.hs with
  | .ready => Config.freeRspData s.cycle
  | .busy _ => Config.freeRspData s.cycle
  | .resp w => w

/-! Completing a command. -/

/-- The command is over but for `left` more BUSY cycles; then its response waits for delivery (R29, R30, R160). -/
def State.finishIn (s : State) (left : Nat) (answer : ResponseWord) : State :=
  s.setHs (if left = 0 then .resp answer else .busy (.finishing left answer))

/-- `respond(status, data)` after `left` BUSY cycles (R9). -/
def State.respond (s : State) (left : Nat) (status : Status) (data : BitVec 24) : State :=
  s.finishIn left (response status data)

/-- `raise E(info)` after `left` BUSY cycles: the response carries the error; no state is written, nothing is saved, no
mode changes and no handler runs (R132, R138). -/
def State.raise (s : State) (left : Nat) (e : Error) : State :=
  s.finishIn left e.response

/-! Reset. -/

/-- What an edge that samples `rst = 1` leaves, whatever was going on (R151, R153): a command in progress, a waiting
response and a presented word are all dropped; `Config` is unchanged. `ENC`'s other fields are unspecified then (V3);
as in R108 only `phase` is forced. -/
def State.resetEdge (s : State) : State :=
  { s with pix := [], bright := 0x0100, enc := { s.enc with phase := .idle }, hs := .busy .inReset }

/-- The length of the reset hold (R152). -/
def resetHold (c : Config) : Nat :=
  c.tLatch + c.tSettle

/-- `left` more cycles of the reset hold, then READY (R152). -/
def State.holdFor (s : State) (left : Nat) : State :=
  s.setHs (if left = 0 then .ready else .busy (.hold left))

end Sys2Proof.Machine
end

