-- ==== Sys2Proof/Machine/Operands.lean ====
section
/-! DEFINITION. The operand forms (30_encoding R63, 40_pixel_buffer R87): each operand is one contiguous field; the
index is the effective address itself; `aux` is a factor, a percentage or a position. -/

namespace Sys2Proof.Machine

/-- The value of an index operand: the field zero-extended (R63). -/
def indexValue (idx : Index) : Nat :=
  idx.toNat

/-- The bound check of R46, unsigned over the 16-bit field. -/
def State.inRange (s : State) (idx : Index) : Bool :=
  decide (indexValue idx < s.cfg.n)

/-- The percentage of SETP (R63). -/
def percentValue (aux : Aux) : Int :=
  sint16 aux

/-- The position of WHEEL (R63). -/
def positionValue (aux : Aux) : Int :=
  sint16 aux

/-- A command that names a cell: `OutOfRange(idx)` before anything else where the cell does not exist (R46, R73), and
else what the command does with the cell's number. -/
def withCell (s : State) (idx : Index) (act : Nat → State) : Out :=
  if s.inRange idx = true then .next (act (indexValue idx))
  else .next (s.raise s.cfg.latency.outOfRange (.outOfRange idx))

end Sys2Proof.Machine
end

