-- ==== Sys2Proof/Machine/Scale.lean ====
section
/-! DEFINITION. The two scalers (40_pixel_buffer R80, 41_scaled_write R91), the snapshot (R85) and the wire word
(42_protocol_encoder R95). -/

namespace Sys2Proof.Machine

/-- `scale_br(c, B)` for one channel: the exact product, one division by 256, truncated, clamped (R80). -/
def scaleBr (c : Channel) (b : BitVec 16) : Channel :=
  channelOfInt (clamp (trunc ((c.toNat : Int) * sint16 b) 256) 0 255)

/-- `scale_br(rgb, B)` (R80). -/
def scaleBrColour (c : Colour) (b : BitVec 16) : Colour :=
  mapChannels (fun ch => scaleBr ch b) c

/-- `scale_pct(c, p)` for one channel: the exact product, one division by 100, truncated, clamped (R91). -/
def scalePct (c : Channel) (p : Int) : Channel :=
  channelOfInt (clamp (trunc ((c.toNat : Int) * p) 100) 0 255)

/-- `scale_pct(rgb, p)` (R91). -/
def scalePctColour (c : Colour) (p : Int) : Colour :=
  mapChannels (fun ch => scalePct ch p) c

/-- The scaled channels in the order `WIRE_ORDER` names, first letter most significant (R95). -/
def arrange (o : WireOrder) (s : Colour) : WireWord :=
  match o with
  | .rgb => red s ++ green s ++ blue s
  | .rbg => red s ++ blue s ++ green s
  | .grb => green s ++ red s ++ blue s
  | .gbr => green s ++ blue s ++ red s
  | .brg => blue s ++ red s ++ green s
  | .bgr => blue s ++ green s ++ red s

/-- The wire word of a raw colour: scaled, then arranged (R95). -/
def wireWordOf (c : Config) (b : BitVec 16) (raw : Colour) : WireWord :=
  arrange c.wireOrder (scaleBrColour raw b)

/-- `W_i`, where cell `i` exists (R95). -/
def State.wireWord? (s : State) (i : Nat) : Option WireWord :=
  (s.cell? i).map (wireWordOf s.cfg s.bright)

/-- `Ws = [W_0, ..., W_{N-1}]` (R95, R102). -/
def State.wireWords (s : State) : List WireWord :=
  (List.range s.cfg.n).map (fun i => wireWordOf s.cfg s.bright (s.pix.read i))

/-- `snapshot(S)`: the scaled colour of every cell (R85). -/
def State.snapshot (s : State) : List Colour :=
  (List.range s.cfg.n).map (fun i => scaleBrColour (s.pix.read i) s.bright)

end Sys2Proof.Machine
end

