-- ==== Sys2Proof/Machine/Encoder.lean ====
section
/-! DEFINITION. The encoder sequencer, cycle by cycle, and RENDER (42_protocol_encoder R97 to R108). -/

namespace Sys2Proof.Machine

/-- `T(sub)` (R108). -/
def phaseLen (c : Config) : Sub → Nat
  | .a => c.t1
  | .b => c.t2
  | .c => c.t3

/-- `dout` as a function of `ENC` (R31, R108). -/
def Enc.dout (e : Enc) : Bool :=
  match e.phase, e.sub with
  | .data, .a => true
  | .data, .b => e.shr.getLsbD 23
  | .data, .c => false
  | .idle, _ => false
  | .latch, _ => false
  | .settle, _ => false

/-- `tx_active` as a function of `ENC` (R106, R108). -/
def Enc.txActive (e : Enc) : Bool :=
  match e.phase with
  | .data => true
  | .idle => false
  | .latch => false
  | .settle => false

/-- The `dout` pin. -/
def State.dout (s : State) : Bool := s.enc.dout

/-- The `tx_active` pin. -/
def State.txActive (s : State) : Bool := s.enc.txActive

/-- `ENC` at the start of a pixel's data: bit 23 in phase A of its cell (R108). -/
def Enc.startPixel (i : Nat) (w : WireWord) : Enc :=
  ⟨.data, i, 23, .a, 0, w⟩

/-- The last cycle of a bit cell in `DATA`: the next bit, the next pixel, or the latch gap (R108). `word` gives the wire
word of a cell that exists; the error is the index of one that does not. -/
def Enc.endCell (c : Config) (under : Option Nat) (word : Nat → Option WireWord) (e : Enc) : Except Nat Enc :=
  if 0 < e.bidx then .ok { e with bidx := e.bidx - 1, sub := .a, cnt := 0, shr := e.shr <<< 1 }
  else if e.pidx + 1 = c.n ∨ under = some (e.pidx + 1) then .ok { e with phase := .latch, cnt := 0 }
  else
    match word (e.pidx + 1) with
    | some w => .ok (Enc.startPixel (e.pidx + 1) w)
    | none => .error (e.pidx + 1)

/-- One edge of the machine of R108, outside `IDLE`'s exit (`State.startFrame`). -/
def Enc.clock (c : Config) (under : Option Nat) (word : Nat → Option WireWord) (e : Enc) : Except Nat Enc :=
  match e.phase with
  | .idle => .ok e
  | .data =>
    if e.cnt + 1 < phaseLen c e.sub then .ok { e with cnt := e.cnt + 1 }
    else
      match e.sub with
      | .a => .ok { e with sub := .b, cnt := 0 }
      | .b => .ok { e with sub := .c, cnt := 0 }
      | .c => e.endCell c under word
  | .latch =>
    if e.cnt + 1 < c.tLatch then .ok { e with cnt := e.cnt + 1 }
    else .ok { e with phase := if 0 < c.tSettle then .settle else .idle, cnt := 0 }
  | .settle =>
    if e.cnt + 1 < c.tSettle then .ok { e with cnt := e.cnt + 1 }
    else .ok { e with phase := .idle }

/-- The encoder leaves `IDLE` (R108): straight to the latch gap where the oracle answers 0, and else to the first bit
of pixel 0. -/
def State.startFrame (s : State) (under : Option Nat) : Out :=
  if under = some 0 then
    .next ((s.setEnc { s.enc with phase := .latch, cnt := 0 }).setHs (.busy (.sending under)))
  else
    match s.wireWord? 0 with
    | some w => .next ((s.setEnc (Enc.startPixel 0 w)).setHs (.busy (.sending under)))
    | none => .fault (.unpopulatedCell 0)

/-- `left` more cycles of the lead-in, then the frame (R104, R108). -/
def State.leadInFor (s : State) (left : Nat) (under : Option Nat) : Out :=
  if left = 0 then s.startFrame under else .next (s.setHs (.busy (.leadIn left under)))

/-- The end of a RENDER, `L_END` cycles before its response: `respond(OK, N)`, or `raise TimingViolation(u)`
(R102, R104, R107). -/
def State.endRender (s : State) : Option Nat → State
  | none => s.respond s.cfg.lEnd .ok (BitVec.ofNat 24 s.cfg.n)
  | some k => s.raise s.cfg.lEnd (.timingViolation k)

/-- One edge while a RENDER's encoder walks; back in `IDLE` the command is finished (R108). -/
def State.sendEdge (s : State) (under : Option Nat) : Out :=
  match s.enc.clock s.cfg under s.wireWord? with
  | .error i => .fault (.unpopulatedCell i)
  | .ok e => if e.phase = .idle then .next ((s.setEnc e).endRender under) else .next (s.setEnc e)

/-- RENDER: the oracle answers, the lead-in begins, and the encoder then sends the frame edge by edge
(R102, R104, R134). It writes neither `PIX` nor `BRIGHT`. -/
def execRender (s : State) : Out :=
  s.leadInFor s.cfg.lStart s.oracle

end Sys2Proof.Machine
end

