-- ==== Sys2Proof/Machine/PixelBuffer.lean ====
section
/-! DEFINITION. SET, FILL, SETBR and SNAP (40_pixel_buffer R81 to R84). A meaning is what the accepting edge does: the
write lands there and the response follows after the command's latency (log 6). -/

namespace Sys2Proof.Machine

/-- SET: one raw colour into one cell (R81). -/
def execSet (idx : Index) (rgb : Colour) (s : State) : Out :=
  withCell s idx fun i => (s.setCell i rgb).respond s.cfg.latency.set .ok 0

/-- FILL: one raw colour into every cell (R82). -/
def execFill (rgb : Colour) (s : State) : Out :=
  .next ((s.setPix (s.pix.fill s.cfg.n rgb)).respond s.cfg.latency.fill .ok 0)

/-- SETBR: the `aux` pattern into `BRIGHT`, unchanged (R63, R83). -/
def execSetbr (aux : Aux) (s : State) : Out :=
  .next ((s.setBright aux).respond s.cfg.latency.setbr .ok 0)

/-- SNAP: answer the brightness-scaled colour of one cell (R84). -/
def execSnap (idx : Index) (s : State) : Out :=
  withCell s idx fun i => s.respond s.cfg.latency.snap .ok (scaleBrColour (s.pix.read i) s.bright)

end Sys2Proof.Machine
end

