-- ==== Sys2Proof/Machine/ScaledWrite.lean ====
section
/-! DEFINITION. SETP, the percentage-scaled write (41_scaled_write R90). -/

namespace Sys2Proof.Machine

/-- SETP: the base colour scaled by the percentage, stored as a raw colour (R90). -/
def execSetp (idx : Index) (rgb : Colour) (pct : Aux) (s : State) : Out :=
  withCell s idx fun i => (s.setCell i (scalePctColour rgb (percentValue pct))).respond s.cfg.latency.setp .ok 0

end Sys2Proof.Machine
end

