-- ==== Sys2Proof/Machine/Wheel.lean ====
section
/-! DEFINITION. The colour wheel: the formula (43_color_wheel R120), the table of 43_color_wheel section 3 (R123), and
WHEEL (R121). -/

namespace Sys2Proof.Machine

/-- `wheel(p)` (R120). -/
def wheel (p : Int) : Colour :=
  if p < 0 ∨ 255 < p then 0
  else if p < 85 then rgbOf (channelOfInt (255 - 3 * p)) (channelOfInt (3 * p)) 0
  else if p < 170 then rgbOf 0 (channelOfInt (255 - 3 * (p - 85))) (channelOfInt (3 * (p - 85)))
  else rgbOf (channelOfInt (3 * (p - 170))) 0 (channelOfInt (255 - 3 * (p - 170)))

/-- Entries 0 to 31 of the table. -/
def wheelTable0 : List Colour :=
  [0xFF0000, 0xFC0300, 0xF90600, 0xF60900, 0xF30C00, 0xF00F00, 0xED1200, 0xEA1500,
   0xE71800, 0xE41B00, 0xE11E00, 0xDE2100, 0xDB2400, 0xD82700, 0xD52A00, 0xD22D00,
   0xCF3000, 0xCC3300, 0xC93600, 0xC63900, 0xC33C00, 0xC03F00, 0xBD4200, 0xBA4500,
   0xB74800, 0xB44B00, 0xB14E00, 0xAE5100, 0xAB5400, 0xA85700, 0xA55A00, 0xA25D00]

/-- Entries 32 to 63 of the table. -/
def wheelTable1 : List Colour :=
  [0x9F6000, 0x9C6300, 0x996600, 0x966900, 0x936C00, 0x906F00, 0x8D7200, 0x8A7500,
   0x877800, 0x847B00, 0x817E00, 0x7E8100, 0x7B8400, 0x788700, 0x758A00, 0x728D00,
   0x6F9000, 0x6C9300, 0x699600, 0x669900, 0x639C00, 0x609F00, 0x5DA200, 0x5AA500,
   0x57A800, 0x54AB00, 0x51AE00, 0x4EB100, 0x4BB400, 0x48B700, 0x45BA00, 0x42BD00]

/-- Entries 64 to 95 of the table. -/
def wheelTable2 : List Colour :=
  [0x3FC000, 0x3CC300, 0x39C600, 0x36C900, 0x33CC00, 0x30CF00, 0x2DD200, 0x2AD500,
   0x27D800, 0x24DB00, 0x21DE00, 0x1EE100, 0x1BE400, 0x18E700, 0x15EA00, 0x12ED00,
   0x0FF000, 0x0CF300, 0x09F600, 0x06F900, 0x03FC00, 0x00FF00, 0x00FC03, 0x00F906,
   0x00F609, 0x00F30C, 0x00F00F, 0x00ED12, 0x00EA15, 0x00E718, 0x00E41B, 0x00E11E]

/-- Entries 96 to 127 of the table. -/
def wheelTable3 : List Colour :=
  [0x00DE21, 0x00DB24, 0x00D827, 0x00D52A, 0x00D22D, 0x00CF30, 0x00CC33, 0x00C936,
   0x00C639, 0x00C33C, 0x00C03F, 0x00BD42, 0x00BA45, 0x00B748, 0x00B44B, 0x00B14E,
   0x00AE51, 0x00AB54, 0x00A857, 0x00A55A, 0x00A25D, 0x009F60, 0x009C63, 0x009966,
   0x009669, 0x00936C, 0x00906F, 0x008D72, 0x008A75, 0x008778, 0x00847B, 0x00817E]

/-- Entries 128 to 159 of the table. -/
def wheelTable4 : List Colour :=
  [0x007E81, 0x007B84, 0x007887, 0x00758A, 0x00728D, 0x006F90, 0x006C93, 0x006996,
   0x006699, 0x00639C, 0x00609F, 0x005DA2, 0x005AA5, 0x0057A8, 0x0054AB, 0x0051AE,
   0x004EB1, 0x004BB4, 0x0048B7, 0x0045BA, 0x0042BD, 0x003FC0, 0x003CC3, 0x0039C6,
   0x0036C9, 0x0033CC, 0x0030CF, 0x002DD2, 0x002AD5, 0x0027D8, 0x0024DB, 0x0021DE]

/-- Entries 160 to 191 of the table. -/
def wheelTable5 : List Colour :=
  [0x001EE1, 0x001BE4, 0x0018E7, 0x0015EA, 0x0012ED, 0x000FF0, 0x000CF3, 0x0009F6,
   0x0006F9, 0x0003FC, 0x0000FF, 0x0300FC, 0x0600F9, 0x0900F6, 0x0C00F3, 0x0F00F0,
   0x1200ED, 0x1500EA, 0x1800E7, 0x1B00E4, 0x1E00E1, 0x2100DE, 0x2400DB, 0x2700D8,
   0x2A00D5, 0x2D00D2, 0x3000CF, 0x3300CC, 0x3600C9, 0x3900C6, 0x3C00C3, 0x3F00C0]

/-- Entries 192 to 223 of the table. -/
def wheelTable6 : List Colour :=
  [0x4200BD, 0x4500BA, 0x4800B7, 0x4B00B4, 0x4E00B1, 0x5100AE, 0x5400AB, 0x5700A8,
   0x5A00A5, 0x5D00A2, 0x60009F, 0x63009C, 0x660099, 0x690096, 0x6C0093, 0x6F0090,
   0x72008D, 0x75008A, 0x780087, 0x7B0084, 0x7E0081, 0x81007E, 0x84007B, 0x870078,
   0x8A0075, 0x8D0072, 0x90006F, 0x93006C, 0x960069, 0x990066, 0x9C0063, 0x9F0060]

/-- Entries 224 to 255 of the table. -/
def wheelTable7 : List Colour :=
  [0xA2005D, 0xA5005A, 0xA80057, 0xAB0054, 0xAE0051, 0xB1004E, 0xB4004B, 0xB70048,
   0xBA0045, 0xBD0042, 0xC0003F, 0xC3003C, 0xC60039, 0xC90036, 0xCC0033, 0xCF0030,
   0xD2002D, 0xD5002A, 0xD80027, 0xDB0024, 0xDE0021, 0xE1001E, 0xE4001B, 0xE70018,
   0xEA0015, 0xED0012, 0xF0000F, 0xF3000C, 0xF60009, 0xF90006, 0xFC0003, 0xFF0000]

/-- The table of 43_color_wheel section 3, copied entry by entry from the spec (R123). -/
def wheelTable : List Colour :=
  wheelTable0 ++ wheelTable1 ++ wheelTable2 ++ wheelTable3 ++ wheelTable4 ++ wheelTable5 ++ wheelTable6 ++ wheelTable7

/-- The table form of R123: 256 entries, and black outside. -/
def wheelByTable (p : Int) : Colour :=
  if p < 0 ∨ 255 < p then 0 else wheelTable.getD p.toNat 0

/-- WHEEL: answer the wheel colour of one position; nothing is written (R121). -/
def execWheel (pos : Aux) (s : State) : Out :=
  .next (s.respond s.cfg.latency.wheel .ok (wheel (positionValue pos)))

end Sys2Proof.Machine
end

