-- ==== Sys2Proof/Machine/Dispatch.lean ====
section
/-! DEFINITION. What the edge that accepts a command does, one arm for each command (30_encoding R64). -/

namespace Sys2Proof.Machine

def exec (i : Instr) (s : State) : Host.Outcome State Fault Refusal :=
  match i with
  | .set idx rgb => Sys2Proof.Machine.execSet idx rgb s
  | .fill rgb => Sys2Proof.Machine.execFill rgb s
  | .setbr aux => Sys2Proof.Machine.execSetbr aux s
  | .snap idx => Sys2Proof.Machine.execSnap idx s
  | .setp idx rgb pct => Sys2Proof.Machine.execSetp idx rgb pct s
  | .render => Sys2Proof.Machine.execRender s
  | .wheel pos => Sys2Proof.Machine.execWheel pos s

end Sys2Proof.Machine
end

