-- ==== Sys2Proof/Machine/Opcodes.lean ====
section
/-! DEFINITION. The opcode map: operation codes, formats, and the match and mask of every row (30_encoding R62, R64). -/

namespace Sys2Proof

/-- Does the format use `aux` (R62)? -/
def Format.usesAux : Format → Bool
  | .a | .aic => true
  | .ic | .c | .i | .z => false

/-- Does the format use `idx` (R62)? -/
def Format.usesIdx : Format → Bool
  | .ic | .i | .aic => true
  | .c | .a | .z => false

/-- Does the format use `rgb` (R62)? -/
def Format.usesRgb : Format → Bool
  | .ic | .c | .aic => true
  | .a | .i | .z => false

/-- The operation codes of R64 with their formats; `none` for an unassigned code (R68). -/
def opFormat (op : BitVec 8) : Option Format :=
  if op = 0x01 then some .ic
  else if op = 0x02 then some .c
  else if op = 0x03 then some .a
  else if op = 0x04 then some .i
  else if op = 0x05 then some .aic
  else if op = 0x06 then some .z
  else if op = 0x07 then some .a
  else none

/-- One row of the opcode table. -/
structure OpcodeRow where
  mnemonic : String
  pattern : CommandWord
  mask : CommandWord
  deriving DecidableEq, Repr

/-- The table of R64. -/
def opcodeTable : List OpcodeRow :=
  [⟨"SET", 0x0100000000000000, 0xFFFFFF0000000000⟩,
   ⟨"FILL", 0x0200000000000000, 0xFFFFFFFFFF000000⟩,
   ⟨"SETBR", 0x0300000000000000, 0xFF0000FFFFFFFFFF⟩,
   ⟨"SNAP", 0x0400000000000000, 0xFFFFFF0000FFFFFF⟩,
   ⟨"SETP", 0x0500000000000000, 0xFF00000000000000⟩,
   ⟨"RENDER", 0x0600000000000000, 0xFFFFFFFFFFFFFFFF⟩,
   ⟨"WHEEL", 0x0700000000000000, 0xFF0000FFFFFFFFFF⟩]

/-- `w` is the row's command iff `w AND mask = match` (R64). -/
def OpcodeRow.matches (r : OpcodeRow) (w : CommandWord) : Bool :=
  w &&& r.mask == r.pattern

/-- The mnemonic of a command, as the table spells it. -/
def Instr.mnemonic : Instr → String
  | .set _ _ => "SET"
  | .fill _ => "FILL"
  | .setbr _ => "SETBR"
  | .snap _ => "SNAP"
  | .setp _ _ _ => "SETP"
  | .render => "RENDER"
  | .wheel _ => "WHEEL"

end Sys2Proof
end

