-- ==== Sys2Proof/WellFormed.lean ====
section
/-! DEFINITION. Well-formed command fields: a known `op`, and every field its format reserves equal to zero
(30_encoding R62, R65). An `Instr` needs no check of its own: each operand has exactly its field's width. -/

namespace Sys2Proof

/-- The checks of R65 in the order of the fields: the format, or the first reason against it. -/
def Fields.check (f : Fields) : Except Illegal Format :=
  match opFormat f.op with
  | none => .error .unknownOp
  | some fmt =>
    if fmt.usesAux = false ∧ f.aux ≠ 0 then .error .reservedAux
    else if fmt.usesIdx = false ∧ f.idx ≠ 0 then .error .reservedIdx
    else if fmt.usesRgb = false ∧ f.rgb ≠ 0 then .error .reservedRgb
    else .ok fmt

/-- The fields are those of some command. -/
def Fields.wellFormed (f : Fields) : Bool :=
  match f.check with
  | .ok _ => true
  | .error _ => false

end Sys2Proof
end

