-- ==== Sys2Proof/Decode.lean ====
section
/-! DEFINITION. Decoding and encoding of command words (30_encoding R60 to R65, R68, R71, R73): one 64-bit word, four
fields, reserved fields zero, every other word illegal by name. -/

namespace Sys2Proof

/-- The four fields of a word: `op` 63:56, `aux` 55:40, `idx` 39:24, `rgb` 23:0 (R61). -/
def fieldsOf (w : CommandWord) : Fields where
  op := w.extractLsb' 56 8
  aux := w.extractLsb' 40 16
  idx := w.extractLsb' 24 16
  rgb := w.extractLsb' 0 24

/-- The word of four fields, `op` most significant (R61). -/
def Fields.word (f : Fields) : CommandWord :=
  f.op ++ f.aux ++ f.idx ++ f.rgb

/-- A command `i` whose reserved fields are those listed, each with the reason if it is not zero (R65). -/
def orReserved (reserved : List (Bool × Illegal)) (i : Instr) : Except Illegal Instr :=
  match reserved with
  | [] => .ok i
  | (isZero, why) :: rest => if isZero then orReserved rest i else .error why

/-- The opcode map of R64 with the reserved fields of R62. -/
def decodeFields (f : Fields) : Except Illegal Instr :=
  let aux0 := (f.aux == 0, Illegal.reservedAux)
  let idx0 := (f.idx == 0, Illegal.reservedIdx)
  let rgb0 := (f.rgb == 0, Illegal.reservedRgb)
  if f.op = 0x01 then orReserved [aux0] (.set f.idx f.rgb)
  else if f.op = 0x02 then orReserved [aux0, idx0] (.fill f.rgb)
  else if f.op = 0x03 then orReserved [idx0, rgb0] (.setbr f.aux)
  else if f.op = 0x04 then orReserved [aux0, rgb0] (.snap f.idx)
  else if f.op = 0x05 then orReserved [] (.setp f.idx f.rgb f.aux)
  else if f.op = 0x06 then orReserved [aux0, idx0, rgb0] .render
  else if f.op = 0x07 then orReserved [idx0, rgb0] (.wheel f.aux)
  else .error .unknownOp

/-- The command a word is, or why it is illegal. Total: every word is one or the other (R69). -/
def decode (w : CommandWord) : Except Illegal Instr :=
  decodeFields (fieldsOf w)

/-- The fields of a command, as the table of R71 assembles it; reserved fields are zero. -/
def Instr.fields : Instr → Fields
  | .set idx rgb => ⟨0x01, 0, idx, rgb⟩
  | .fill rgb => ⟨0x02, 0, 0, rgb⟩
  | .setbr aux => ⟨0x03, aux, 0, 0⟩
  | .snap idx => ⟨0x04, 0, idx, 0⟩
  | .setp idx rgb pct => ⟨0x05, pct, idx, rgb⟩
  | .render => ⟨0x06, 0, 0, 0⟩
  | .wheel pos => ⟨0x07, pos, 0, 0⟩

/-- The word of a command (R71). -/
def encode (i : Instr) : CommandWord :=
  i.fields.word

/-- The command word whose low `nbits` bits are those of `w` and whose other bits are 0, bit 0 the least
significant (R7, R60: a command is ONE word, so nothing is laid out beyond it). -/
def tableWord (nbits w : Nat) : CommandWord :=
  BitVec.ofNat 64 (w % 2 ^ nbits)

/-- What the decoder reads from an instruction whose bits are `w`, as spec/opcode_table.json numbers them. -/
def decodeTableWord (nbits w : Nat) : Option Instr :=
  match decode (tableWord nbits w) with
  | .ok i => some i
  | .error _ => none

end Sys2Proof
end

