-- ==== Sys2Proof/Machine/Port.lean ====
section
/-! DEFINITION. The command and response ports and the reset input, edge by edge (10_state R28 to R30, 30_encoding R73,
70_reset_and_hazards R150 to R153). -/

namespace Sys2Proof.Machine

/-- What a rising edge does: something settled already, or the acceptance of a command. -/
inductive Edge where
  | settled (o : Out)
  | accept (i : Instr)

/-- One edge while `HS` is BUSY. -/
def State.busyEdge (s : State) : Work → Out
  | .inReset => .next (s.holdFor (resetHold s.cfg))
  | .hold left => .next (s.holdFor (left - 1))
  | .leadIn left under => s.leadInFor (left - 1) under
  | .sending under => s.sendEdge under
  | .finishing left answer => .next (s.finishIn (left - 1) answer)

/-- An accepted word: the command it is, or `ILLEGAL_COMMAND`, which changes nothing (R68, R73, R133). -/
def State.acceptWord (s : State) (w : CommandWord) : Edge :=
  match decode w with
  | .ok i => .accept i
  | .error _ => .settled (.next (s.raise s.cfg.latency.illegal .illegalCommand))

/-- The edge that ends this clk cycle. Reset overrides everything (R137, R151); `cmd_data` is looked at only in a cycle
that accepts (R28); a waiting response goes when the host takes it (R29). The spec leaves open what a host does that drops
`cmd_valid` or changes `cmd_data` while `cmd_ready` is 0 (V8, beside R28 and R156); DESIGN CHOICE: that has no effect, and
the word accepted is the one that stands in the accepting cycle (log 25; unsafe for a claim about such a host). -/
def State.edge (s : State) : Edge :=
  if s.cfg.valid then
    if s.pins.rst = true then .settled (.next s.resetEdge)
    else
      match s.hs with
      | .ready => if s.pins.cmdValid = true then s.acceptWord s.pins.cmdData else .settled (.next s)
      | .busy work => .settled (s.busyEdge work)
      | .resp _ => if s.pins.rspReady = true then .settled (.next (s.setHs .ready)) else .settled (.next s)
  else .settled (.refused .notAConfiguration)

/-- The state in which the host presents the word `w` to a port that is READY and not in reset: the next edge accepts
it (R28, log 10). -/
def State.present (s : State) (w : CommandWord) : State :=
  { s with
    hs := .ready
    enc := { s.enc with phase := .idle }
    inputs := { s.pins with rst := false, cmdValid := true, cmdData := w } :: s.inputs.tail }

end Sys2Proof.Machine
end

