-- ==== Sys2Proof/Machine/Step.lean ====
section
/-! DEFINITION. One step: one rising edge of `clk` (10_state R27). -/

namespace Sys2Proof.Machine

/-- The edge happens, and the clk cycle is over. -/
def step (s : State) : Host.Outcome State Fault Refusal :=
  match s.edge with
  | .settled o => endCycle o
  | .accept i => endCycle (exec i s)

/-- `s` with the word whose bits are `w` presented at a READY port, so that the next step accepts it (log 10). -/
def State.withFetchWord (s : State) (nbits w : Nat) : State :=
  s.present (tableWord nbits w)

end Sys2Proof.Machine
end

