-- ==== Sys2Proof/Machine/Assembler.lean ====
section
/-! DEFINITION. The host's side of the command set: assembler operands and lines (30_encoding R71), pseudo-instructions
(R72) and the hue offset of `rainbowCycle` (43_color_wheel R124). Nothing in LPE reads these. -/

namespace Sys2Proof.Machine

/-- A colour operand: `#RRGGBB`, or `(r, g, b)` in decimal. -/
inductive ColourArg where
  | hex (v : Colour)
  | dec (r g b : Nat)
  deriving DecidableEq, Repr

/-- A brightness operand: a 16-bit pattern, or the decimal fraction `mantissa / 10 ^ decimals`. -/
inductive FactorArg where
  | pattern (v : BitVec 16)
  | fraction (mantissa : Int) (decimals : Nat)
  deriving DecidableEq, Repr

/-- A line of assembler, operands as written. -/
inductive AsmLine where
  | set (idx : Nat) (colour : ColourArg)
  | fill (colour : ColourArg)
  | setbr (factor : FactorArg)
  | snap (idx : Nat)
  | setp (idx : Nat) (colour : ColourArg) (pct : Int)
  | render
  | wheel (pos : Int)
  deriving DecidableEq, Repr

/-- A colour; a decimal channel above 255 has no 8-bit field to go to (log 19). -/
def ColourArg.assemble : ColourArg → Option Colour
  | .hex v => some v
  | .dec r g b =>
    if r < 256 ∧ g < 256 ∧ b < 256 then some (rgbOf (BitVec.ofNat 8 r) (BitVec.ofNat 8 g) (BitVec.ofNat 8 b)) else none

/-- A decimal index; one above 65535 has no 16-bit field to go to (log 19). -/
def assembleIndex (idx : Nat) : Option Index :=
  if idx < 65536 then some (BitVec.ofNat 16 idx) else none

/-- A percentage or a position: a decimal integer in -32768 .. 32767, `aux = value mod 65536`. -/
def assembleSigned (v : Int) : Option Aux :=
  if -32768 ≤ v ∧ v ≤ 32767 then some (BitVec.ofNat 16 (v % 65536).toNat) else none

/-- A brightness: a pattern as it stands, or an exact multiple of 1/256, `aux = (factor * 256) mod 65536`. -/
def FactorArg.assemble : FactorArg → Option Aux
  | .pattern v => some v
  | .fraction mantissa decimals =>
    if mantissa * 256 % ((10 : Int) ^ decimals) = 0 then
      some (BitVec.ofNat 16 (mantissa * 256 / ((10 : Int) ^ decimals) % 65536).toNat)
    else none

/-- The command of a line, where its operands are as R71 says. -/
def AsmLine.assemble : AsmLine → Option Instr
  | .set idx c => do return .set (← assembleIndex idx) (← c.assemble)
  | .fill c => do return .fill (← c.assemble)
  | .setbr f => do return .setbr (← f.assemble)
  | .snap idx => do return .snap (← assembleIndex idx)
  | .setp idx c p => do return .setp (← assembleIndex idx) (← c.assemble) (← assembleSigned p)
  | .render => some .render
  | .wheel p => do return .wheel (← assembleSigned p)

/-- The pseudo-instructions of R72. -/
inductive Pseudo where
  | tick (colour : Colour) (idx : Index)
  | chaseStep (colour : Colour) (i : Index)
  | setw (idx : Index) (pos : Aux)
  | clear
  deriving DecidableEq, Repr

/-- The index before `i`, wrapping: `(i - 1) mod N` (R72). -/
def previousIndex (n : Nat) (i : Index) : Index :=
  BitVec.ofNat 16 ((i.toNat + n - 1) % n)

/-- The commands of a pseudo-instruction on a machine of `n` pixels, in order, each from the response to the command
before it; only SETW's second command reads it (R72). -/
def Pseudo.expand (n : Nat) : Pseudo → List (ResponseWord → Instr)
  | .tick colour idx => [fun _ => .set idx colour, fun _ => .render]
  | .chaseStep colour i => [fun _ => .set i colour, fun _ => .set (previousIndex n i) 0, fun _ => .render]
  | .setw idx pos => [fun _ => .wheel pos, fun answer => .set idx (dataOf answer)]
  | .clear => [fun _ => .fill 0]

/-- The position the host feeds the wheel for pixel `index` in animation phase `phase`; the division floors, the
spec's own reading (R124, N16). -/
def hueOffset (n index phase : Nat) : Nat :=
  (index * 256 / n + phase) % 256

end Sys2Proof.Machine
end

