-- ==== Sys2Proof/Machine/Waveform.lean ====
section
/-! DEFINITION. The waveform of `dout` as the spec writes it down, one level for each clk cycle (42_protocol_encoder R96 to
R104): what the cycle-by-cycle encoder is held against. -/

namespace Sys2Proof.Machine

/-- `emit(level, cycles)` (R9). -/
def emit (level : Bool) (cycles : Nat) : List Bool :=
  List.replicate cycles level

/-- `cell(b)` (R97). -/
def cell (c : Config) (b : Bool) : List Bool :=
  emit true c.t1 ++ emit b c.t2 ++ emit false c.t3

/-- The bits of a wire word, bit 23 first (R96). -/
def wordBits (w : WireWord) : List Bool :=
  (List.range 24).map fun j => w.getLsbD (23 - j)

/-- The frame bit sequence of R96. -/
def frameBits (ws : List WireWord) : List Bool :=
  ws.flatMap wordBits

/-- `wave_data(Ws)` (R99). -/
def waveData (c : Config) (ws : List WireWord) : List Bool :=
  (frameBits ws).flatMap (cell c)

/-- The whole pixels a RENDER sends: `m` of R102. -/
def pixelsSent (c : Config) (under : Option Nat) : Nat :=
  under.getD c.n

/-- The data, the latch gap and the settle time (R99 to R102). -/
def frameWave (c : Config) (ws : List WireWord) : List Bool :=
  waveData c ws ++ emit false c.tLatch ++ emit false c.tSettle

/-- `dout` over the BUSY cycles of a RENDER: lead-in, frame, lead-out (R102, R104). -/
def renderWave (c : Config) (ws : List WireWord) (under : Option Nat) : List Bool :=
  emit false c.lStart ++ frameWave c (ws.take (pixelsSent c under)) ++ emit false c.lEnd

/-- The length of a bit cell (R97). -/
def cellLen (c : Config) : Nat :=
  c.t1 + c.t2 + c.t3

/-- The clk cycles of the data of `m` pixels (R99). -/
def dataLen (c : Config) (m : Nat) : Nat :=
  24 * m * cellLen c

/-- From the first cycle of the first cell to the last cycle of the settle time, `m` pixels sent (R103). -/
def frameLen (c : Config) (m : Nat) : Nat :=
  dataLen c m + c.tLatch + c.tSettle

/-- The BUSY cycles of a RENDER (R160). -/
def renderLen (c : Config) (under : Option Nat) : Nat :=
  c.lStart + frameLen c (pixelsSent c under) + c.lEnd

/-- `tx_active` over the BUSY cycles of a RENDER (R102, R106). -/
def renderTx (c : Config) (under : Option Nat) : List Bool :=
  emit false c.lStart ++ emit true (dataLen c (pixelsSent c under)) ++ emit false (c.tLatch + c.tSettle + c.lEnd)

/-- The rising edges of a waveform that follows the level `prev`. -/
def risingEdges : Bool → List Bool → Nat
  | _, [] => 0
  | prev, b :: rest => (if prev = false ∧ b = true then 1 else 0) + risingEdges b rest

/-- The cycles at which a waveform is high. -/
def highCycles (w : List Bool) : Nat :=
  w.count true

/-- The 1 bits of all the words: `popcount` of R99. -/
def popcount (ws : List WireWord) : Nat :=
  (frameBits ws).count true

/-- A waveform without the low runs at its two ends, which R104 takes as lower bounds only. -/
def trimLow (w : List Bool) : List Bool :=
  ((w.dropWhile (· == false)).reverse.dropWhile (· == false)).reverse

/-- A waveform as a list of levels and run lengths (R104). -/
def runLengths : List Bool → List (Bool × Nat)
  | [] => []
  | b :: rest =>
    match runLengths rest with
    | [] => [(b, 1)]
    | (b', k) :: runs => if b = b' then (b', k + 1) :: runs else (b, 1) :: (b', k) :: runs

end Sys2Proof.Machine
end

