-- ==== Sys2Proof/Machine/CommandLevel.lean ====
section
/-! DEFINITION. The command-level view of LPE (10_state R26, R32): what one accepted word leaves and what it puts on the
output pins until its response, written from the commands' pseudocode, with no clock in it. The cycle-level machine
is held against it. -/

namespace Sys2Proof.Machine

/-- What an accepted word does: the pixel memory and brightness it leaves, its response word, how many clk cycles LPE is
BUSY with it, and `dout` and `tx_active` in each of those cycles. -/
structure Answer where
  pix : Memory
  bright : BitVec 16
  word : ResponseWord
  busy : Nat
  wave : List Bool
  tx : List Bool
  deriving DecidableEq, Repr

/-- The cell a command names, if its format has an index (R62, R87). -/
def indexOf : Instr → Option Index
  | .set idx _ => some idx
  | .snap idx => some idx
  | .setp idx _ _ => some idx
  | .fill _ => none
  | .setbr _ => none
  | .render => none
  | .wheel _ => none

/-- An answer with nothing on the wire: `busy` low cycles (R31). -/
def silent (pix : Memory) (bright : BitVec 16) (word : ResponseWord) (busy : Nat) : Answer :=
  ⟨pix, bright, word, busy, emit false busy, emit false busy⟩

/-- RENDER's response (R102, R107). -/
def renderAnswer (c : Config) : Option Nat → ResponseWord
  | none => response .ok (BitVec.ofNat 24 c.n)
  | some k => (Error.timingViolation k).response

/-- Step 3 of R73: the command's own rule. -/
def State.executed (s : State) : Instr → Answer
  | .set idx rgb => silent (s.pix.write idx.toNat rgb) s.bright (response .ok 0) s.cfg.latency.set
  | .fill rgb => silent (s.pix.fill s.cfg.n rgb) s.bright (response .ok 0) s.cfg.latency.fill
  | .setbr aux => silent s.pix aux (response .ok 0) s.cfg.latency.setbr
  | .snap idx =>
    silent s.pix s.bright (response .ok (scaleBrColour (s.pix.read idx.toNat) s.bright)) s.cfg.latency.snap
  | .setp idx rgb pct =>
    silent (s.pix.write idx.toNat (scalePctColour rgb (sint16 pct))) s.bright (response .ok 0) s.cfg.latency.setp
  | .render =>
    ⟨s.pix, s.bright, renderAnswer s.cfg s.oracle, renderLen s.cfg s.oracle, renderWave s.cfg s.wireWords s.oracle,
      renderTx s.cfg s.oracle⟩
  | .wheel pos => silent s.pix s.bright (response .ok (wheel (sint16 pos))) s.cfg.latency.wheel

/-- Does the command name a cell that does not exist (R46)? -/
def State.misses (s : State) (i : Instr) : Option Index :=
  match indexOf i with
  | none => none
  | some idx => if idx.toNat < s.cfg.n then none else some idx

/-- The order of R73: illegal, out of range, execute. -/
def State.answer (s : State) (w : CommandWord) : Answer :=
  match decode w with
  | .error _ => silent s.pix s.bright Error.illegalCommand.response s.cfg.latency.illegal
  | .ok i =>
    match s.misses i with
    | some idx => silent s.pix s.bright (Error.outOfRange idx).response s.cfg.latency.outOfRange
    | none => s.executed i

end Sys2Proof.Machine
end

