-- ==== Sys2Proof/Safety.lean ====
section
/-! DEFINITION. The terms claims are made in: runs of steps and what the output pins show along them, the invariant of
the machine, and the host's duties at the ports. -/

namespace Sys2Proof.Machine

/-- The state after `k` edges, where every one of them has a next state. -/
def runFor : Nat → State → Option State
  | 0, s => some s
  | k + 1, s =>
    match step s with
    | .next t => runFor k t
    | .fault _ => none
    | .refused _ => none

/-- An output in each of `k` clk cycles, this one first. -/
def trace (out : State → Bool) : Nat → State → List Bool
  | 0, _ => []
  | k + 1, s =>
    out s ::
      match step s with
      | .next t => trace out k t
      | .fault _ => []
      | .refused _ => []

/-- `rst` stays 0 at the next `k` edges. -/
abbrev State.noReset (s : State) (k : Nat) : Prop :=
  ∀ p ∈ s.inputs.take k, p.rst = false

/-- The host takes no response at the next `k` edges. -/
abbrev State.noTake (s : State) (k : Nat) : Prop :=
  ∀ p ∈ s.inputs.take k, p.rspReady = false

/-- The edge that ends this clk cycle accepts a word: `cmd_valid = 1`, `cmd_ready = 1` and no reset (R28). -/
abbrev State.accepting (s : State) : Prop :=
  s.cfg.valid ∧ s.pins.rst = false ∧ s.hs = .ready ∧ s.pins.cmdValid = true

/-- The host's duty of R28: a word presented while `cmd_ready = 0` stands unchanged in the next clk cycle.
The spec leaves open what follows where a host breaks it (V8); no step asks for it (log 25). -/
abbrev State.hostHolds (s t : State) : Prop :=
  s.pins.cmdValid = true → s.cmdReady = false → t.pins.cmdValid = true ∧ t.pins.cmdData = s.pins.cmdData

/-- An answer the oracle may give (R102, R134). -/
def underOk (c : Config) : Option Nat → Prop
  | none => True
  | some k => k < c.n ∧ c.canUnderrun = true

/-- A response word with one of the four status codes (R67). -/
abbrev answerOk (w : ResponseWord) : Prop :=
  (statusOf w).toNat ≤ 3

/-- `ENC` while a RENDER sends (R26, R108): the walk has not left its bounds, and the shift register holds the wire word
of the pixel being sent, shifted to the bit being sent. -/
def Enc.sendingOk (e : Enc) (s : State) (under : Option Nat) : Prop :=
  match e.phase with
  | .idle => False
  | .data =>
    e.pidx < pixelsSent s.cfg under ∧ e.bidx ≤ 23 ∧ e.cnt < phaseLen s.cfg e.sub ∧
      e.shr = wireWordOf s.cfg s.bright (s.pix.read e.pidx) <<< (23 - e.bidx)
  | .latch => e.cnt < s.cfg.tLatch
  | .settle => e.cnt < s.cfg.tSettle

/-- `HS`, the work behind it and `ENC` fit together (R26, R30, R108). -/
def State.handshakeOk (s : State) : Prop :=
  match s.hs with
  | .ready => s.enc.phase = .idle
  | .resp w => s.enc.phase = .idle ∧ answerOk w
  | .busy .inReset => s.enc.phase = .idle
  | .busy (.hold left) => s.enc.phase = .idle ∧ 1 ≤ left ∧ left ≤ resetHold s.cfg
  | .busy (.leadIn left under) => s.enc.phase = .idle ∧ 1 ≤ left ∧ left ≤ s.cfg.lStart ∧ underOk s.cfg under
  | .busy (.sending under) => underOk s.cfg under ∧ s.enc.sendingOk s under
  | .busy (.finishing left w) => s.enc.phase = .idle ∧ 1 ≤ left ∧ answerOk w

/-- The invariant: a configuration of LPE, pixel memory in its canonical form with no cell beyond N, and a handshake
that fits the encoder. -/
def State.Inv (s : State) : Prop :=
  s.cfg.valid ∧ s.pix.wf ∧ s.pix.within s.cfg.n ∧ s.handshakeOk

/-- Two states that agree in everything but the fields of `ENC` that nothing reads: all but `phase` in `IDLE` (R26, V3),
all but `phase` and `cnt` in the latch gap and the settle time. -/
def State.sameButUnreadEnc (s t : State) : Prop :=
  t = s.setEnc t.enc ∧ s.enc.phase = t.enc.phase ∧ (s.enc.phase ≠ .idle → s.enc.cnt = t.enc.cnt) ∧
    (s.enc.phase = .data → s.enc = t.enc)

/-- Two states that agree in everything but `cmd_valid` and `cmd_data` of this clk cycle. -/
def State.sameButCommand (s t : State) : Prop :=
  ∃ v d, t = { s with inputs := { s.pins with cmdValid := v, cmdData := d } :: s.inputs.tail }

end Sys2Proof.Machine
end

