-- ==== Sys2Proof/Certificates/Slice0/Obligations.lean ====
section
/-! DEFINITION. The statements about LPE, from the numbered rules of the spec. -/

open Sys2Proof Sys2Proof.Machine

/-! Encoding (30_encoding). -/

/-- R61: the four fields stand at the same place in every word, and the colour field is red, green, blue. -/
def Obligations.CommandFieldsStandAtTheSamePlace : Prop :=
  ∀ w : CommandWord,
    (fieldsOf w).op.toNat = w.toNat / 2 ^ 56 ∧
    (fieldsOf w).aux.toNat = w.toNat / 2 ^ 40 % 2 ^ 16 ∧
    (fieldsOf w).idx.toNat = w.toNat / 2 ^ 24 % 2 ^ 16 ∧
    (fieldsOf w).rgb.toNat = w.toNat % 2 ^ 24 ∧
    (red (fieldsOf w).rgb).toNat = w.toNat / 2 ^ 16 % 2 ^ 8 ∧
    (green (fieldsOf w).rgb).toNat = w.toNat / 2 ^ 8 % 2 ^ 8 ∧
    (blue (fieldsOf w).rgb).toNat = w.toNat % 2 ^ 8

/-- R60 to R64, R71: decoding the word of a command gives the command back, every operand at every value. -/
def Obligations.DecodeOfEncodeIsTheCommand : Prop :=
  ∀ i : Instr, decode (encode i) = .ok i

/-- R60 to R65: a word that decodes is the word of the command it decodes to, so no two words mean one command. -/
def Obligations.EncodeOfDecodeIsTheWord : Prop :=
  ∀ (w : CommandWord) (i : Instr), decode w = .ok i → encode i = w

/-- R64: a word is a row's command iff `w AND mask = match`, and no word is two rows' command. -/
def Obligations.DecoderFollowsTheOpcodeTable : Prop :=
  (∀ (w : CommandWord), ∀ r ∈ opcodeTable,
    r.matches w = true ↔ ∃ i, decode w = .ok i ∧ i.mnemonic = r.mnemonic) ∧
  opcodeTable.Pairwise fun r r' => ∀ w, ¬ (r.matches w = true ∧ r'.matches w = true)

/-- R62, R65: the decoder refuses a word exactly when the format table does, and for the same reason. -/
def Obligations.DecoderAgreesWithTheFormats : Prop :=
  ∀ (w : CommandWord) (e : Illegal), decode w = .error e ↔ (fieldsOf w).check = .error e

/-- R65: a word whose `op` is 0x01 .. 0x07 and which has a nonzero reserved field matches no row and is illegal. -/
def Obligations.ReservedFieldsMustBeZero : Prop :=
  (∀ op : BitVec 8, (∃ fmt, opFormat op = some fmt) ↔ 1 ≤ op.toNat ∧ op.toNat ≤ 7) ∧
  ∀ (w : CommandWord) (fmt : Format), opFormat (fieldsOf w).op = some fmt →
    ((fmt.usesAux = false ∧ (fieldsOf w).aux ≠ 0) ∨ (fmt.usesIdx = false ∧ (fieldsOf w).idx ≠ 0) ∨
      (fmt.usesRgb = false ∧ (fieldsOf w).rgb ≠ 0)) →
    (∀ r ∈ opcodeTable, r.matches w = false) ∧ ∃ e, decode w = .error e ∧ e ≠ .unknownOp

/-- V-ENC, V-ILL of 95_test_vectors: words written out in the spec, one or more for each command. -/
def Obligations.SpecWordsDecodeAsTheSpecSays : Prop :=
  decode 0x0100000002FF8000 = .ok (.set 2 0xFF8000) ∧
  decode 0x0200000000102030 = .ok (.fill 0x102030) ∧
  decode 0x03FF800000000000 = .ok (.setbr 0xFF80) ∧
  decode 0x0400000001000000 = .ok (.snap 1) ∧
  decode 0x05004D0003FF6414 = .ok (.setp 3 0xFF6414 77) ∧
  decode 0x0600000000000000 = .ok .render ∧
  decode 0x07FFFF0000000000 = .ok (.wheel 0xFFFF) ∧
  decode 0x0000000000000000 = .error .unknownOp ∧
  decode 0xFFFFFFFFFFFFFFFF = .error .unknownOp ∧
  decode 0x0100010009000000 = .error .reservedAux ∧
  decode 0x0200000001123456 = .error .reservedIdx ∧
  decode 0x0300800000000001 = .error .reservedRgb

/-- R63: an index is unsigned, `aux` is two's complement. -/
def Obligations.OperandsAreExtendedAsTheSpecSays : Prop :=
  (∀ idx : Index, indexValue idx = idx.toNat ∧ indexValue idx ≤ 65535) ∧
  ∀ aux : Aux, percentValue aux = aux.toInt ∧ positionValue aux = aux.toInt ∧ -32768 ≤ sint16 aux ∧ sint16 aux ≤ 32767

/-- R66, R67: status in bits 31:24, data in bits 23:0; the four status codes. -/
def Obligations.ResponseWordLayout : Prop :=
  (Status.ok.code = 0x00 ∧ Status.outOfRange.code = 0x01 ∧ Status.timingViolation.code = 0x02 ∧
    Status.illegalCommand.code = 0x03) ∧
  ∀ (st : Status) (d : BitVec 24),
    (response st d).toNat = st.code.toNat * 2 ^ 24 + d.toNat ∧ statusOf (response st d) = st.code ∧
    dataOf (response st d) = d

/-- R71: the table of assembled words; signed operands and factors read back as what was written. -/
def Obligations.AssembledWordsFollowTheTable : Prop :=
  (∀ (idx : Index) (rgb : Colour) (aux : Aux),
    (encode (.set idx rgb)).toNat = 1 * 2 ^ 56 + idx.toNat * 2 ^ 24 + rgb.toNat ∧
    (encode (.fill rgb)).toNat = 2 * 2 ^ 56 + rgb.toNat ∧
    (encode (.setbr aux)).toNat = 3 * 2 ^ 56 + aux.toNat * 2 ^ 40 ∧
    (encode (.snap idx)).toNat = 4 * 2 ^ 56 + idx.toNat * 2 ^ 24 ∧
    (encode (.setp idx rgb aux)).toNat = 5 * 2 ^ 56 + aux.toNat * 2 ^ 40 + idx.toNat * 2 ^ 24 + rgb.toNat ∧
    (encode .render).toNat = 6 * 2 ^ 56 ∧
    (encode (.wheel aux)).toNat = 7 * 2 ^ 56 + aux.toNat * 2 ^ 40) ∧
  (∀ v : Int, -32768 ≤ v → v ≤ 32767 → ∃ a, assembleSigned v = some a ∧ sint16 a = v) ∧
  ∀ (mantissa k : Int) (decimals : Nat), mantissa * 256 = k * 10 ^ decimals → -32768 ≤ k → k ≤ 32767 →
    ∃ a, (FactorArg.fraction mantissa decimals).assemble = some a ∧ sint16 a = k

/-- R72: the commands each pseudo-instruction stands for, whatever the responses are, and the wrapping index. -/
def Obligations.PseudoInstructionsExpandAsTheSpecSays : Prop :=
  (∀ (n : Nat) (c : Colour) (i : Index) (pos : Aux) (r : ResponseWord),
    ((Pseudo.tick c i).expand n).map (fun f => f r) = [.set i c, .render] ∧
    ((Pseudo.chaseStep c i).expand n).map (fun f => f r) = [.set i c, .set (previousIndex n i) 0, .render] ∧
    ((Pseudo.setw i pos).expand n).map (fun f => f r) = [.wheel pos, .set i (dataOf r)] ∧
    (Pseudo.clear.expand n).map (fun f => f r) = [.fill 0]) ∧
  ∀ (n : Nat) (i : Index), 1 ≤ n → n ≤ 65536 → i.toNat < n →
    (previousIndex n i).toNat < n ∧
    (i = 0 → (previousIndex n i).toNat = n - 1) ∧ (i ≠ 0 → (previousIndex n i).toNat = i.toNat - 1)

/-! The port and the step (10_state). -/

/-- R28, R73: the edge that accepts a word which decodes runs that command, and then the clk cycle is over; and the
word placed by `withFetchWord` is accepted by the very next step (what `withFetchWord` stands for is log 10). -/
def Obligations.StepRunsTheAcceptedCommand : Prop :=
  (∀ (s : State) (i : Instr), s.accepting → decode s.pins.cmdData = .ok i → step s = endCycle (exec i s)) ∧
  ∀ (s : State) (nbits w : Nat) (i : Instr), s.cfg.valid → decodeTableWord nbits w = some i →
    step (s.withFetchWord nbits w) = endCycle (exec i (s.withFetchWord nbits w))

/-- R28: `cmd_valid` and `cmd_data` decide nothing in a cycle that accepts no word. That this holds even of a host that
breaks the hold rule of R28 (V8) is the model's choice (log 25). -/
def Obligations.CommandPinsAreReadOnlyWhenAccepting : Prop :=
  ∀ s t : State, s.sameButCommand t → ¬ s.accepting → ¬ t.accepting → step s = step t

/-- R30: what `HS` shows on the output pins, the order in which it moves while no reset comes, and what READY implies. -/
def Obligations.HandshakeMovesInOrder : Prop :=
  ∀ s t : State, s.Inv → s.pins.rst = false → step s = .next t →
    match s.hs with
    | .ready =>
      (s.cmdReady = true ∧ s.rspValid = false ∧ s.enc.phase = .idle ∧ s.dout = false) ∧
      (s.pins.cmdValid = true → ∃ w, t.hs = .busy w) ∧ (s.pins.cmdValid = false → t = s.advance)
    | .busy w =>
      (s.cmdReady = false ∧ s.rspValid = false) ∧
      ((∃ w', t.hs = .busy w') ∨ (∃ r, t.hs = .resp r) ∨ (t.hs = .ready ∧ ∃ left, w = .hold left))
    | .resp r =>
      (s.cmdReady = false ∧ s.rspValid = true) ∧
      (s.pins.rspReady = true → t.hs = .ready) ∧ (s.pins.rspReady = false → t.hs = .resp r)

/-- R29: the response word stands unchanged, `rsp_valid` high, until the host takes it; it is then gone. -/
def Obligations.ResponseIsHeldUntilTaken : Prop :=
  ∀ (s : State) (w : ResponseWord), s.cfg.valid → s.pins.rst = false → s.hs = .resp w →
    s.rspValid = true ∧ s.rspData = w ∧
    (s.pins.rspReady = false → step s = .next s.advance ∧ s.advance.rspValid = true ∧ s.advance.rspData = w) ∧
    (s.pins.rspReady = true → ∃ t, step s = .next t ∧ t.rspValid = false ∧ t.cmdReady = true)

/-- R156: a host that takes no response stalls LPE, for as long as it does, with `dout` low. -/
def Obligations.HostThatTakesNothingStallsLpe : Prop :=
  ∀ (s : State) (w : ResponseWord) (k : Nat), s.Inv → s.hs = .resp w → s.noReset k → s.noTake k →
    ∃ t, runFor k s = some t ∧ t.hs = .resp w ∧ t.cmdReady = false ∧ t.dout = false ∧ t.pix = s.pix ∧
      t.bright = s.bright

/-- R133: a word is illegal iff it matches no row; it is answered `ILLEGAL_COMMAND`, code 0x03, data 0, and changes
nothing. That its latency is a constant of its own, counted in BUSY cycles, is the model's (log 3, log 22). -/
def Obligations.IllegalWordIsAnsweredAndChangesNothing : Prop :=
  (∀ w : CommandWord, (∃ e, decode w = .error e) ↔ ∀ r ∈ opcodeTable, r.matches w = false) ∧
  Error.illegalCommand.response = 0x03000000 ∧
  ∀ (s : State) (e : Illegal), s.accepting → decode s.pins.cmdData = .error e →
    ∃ t, step s = .next t ∧ t.hs = .busy (.finishing s.cfg.latency.illegal 0x03000000) ∧
      t.pix = s.pix ∧ t.bright = s.bright ∧ t.enc = s.enc ∧ t.cfg = s.cfg ∧ t.dout = s.dout ∧ t.txActive = s.txActive

/-- R46, R131: SET, SETP and SNAP at an index of N or more answer `OUT_OF_RANGE` with the index and change nothing; no
index is out of range where N is 65536; no other command ever answers it. That the answer's latency is a constant of its
own, counted in BUSY cycles, is the model's (log 3, log 22). -/
def Obligations.OutOfRangeIsAnsweredAndChangesNothing : Prop :=
  (∀ (s : State) (i : Instr) (idx : Index), s.cfg.valid → indexOf i = some idx → s.cfg.n ≤ idx.toNat →
    exec i s =
      .next { s with hs := .busy (.finishing s.cfg.latency.outOfRange (response .outOfRange (idx.setWidth 24))) }) ∧
  (∀ (s : State) (idx : Index), s.cfg.n = 65536 → s.inRange idx = true) ∧
  (∀ (s t : State) (i : Instr) (left : Nat) (w : ResponseWord), indexOf i = none → exec i s = .next t →
    t.hs = .busy (.finishing left w) → statusOf w ≠ 0x01) ∧
  ∀ (c : Config) (u : Option Nat), statusOf (renderAnswer c u) ≠ 0x01

/-! The commands (40_pixel_buffer, 41_scaled_write, 42_protocol_encoder, 43_color_wheel). In each: that the write lands at
the accepting edge is the model's choice (log 6), and so is the count of the latency in BUSY cycles (log 3). -/

/-- R81: SET, in range and out of range. The write at the accepting edge is log 6, the BUSY count log 3. -/
def Obligations.SetWritesOneRawColour : Prop :=
  ∀ (s : State) (idx : Index) (rgb : Colour), s.cfg.valid →
    decode (0x01#8 ++ 0#16 ++ idx ++ rgb) = .ok (.set idx rgb) ∧
    (idx.toNat < s.cfg.n →
      exec (.set idx rgb) s =
        .next { s with
          pix := s.pix.write idx.toNat rgb
          hs := .busy (.finishing s.cfg.latency.set (response .ok 0)) } ∧
      (s.pix.wf → ∀ j, (s.pix.write idx.toNat rgb).read j = if j = idx.toNat then rgb else s.pix.read j)) ∧
    (s.cfg.n ≤ idx.toNat →
      exec (.set idx rgb) s =
        .next { s with hs := .busy (.finishing s.cfg.latency.outOfRange (response .outOfRange (idx.setWidth 24))) })

/-- R82: FILL. The write at the accepting edge is log 6, the BUSY count log 3. -/
def Obligations.FillWritesEveryCell : Prop :=
  ∀ (s : State) (rgb : Colour), s.cfg.valid →
    decode (0x02#8 ++ 0#16 ++ 0#16 ++ rgb) = .ok (.fill rgb) ∧
    exec (.fill rgb) s =
      .next { s with
        pix := s.pix.fill s.cfg.n rgb
        hs := .busy (.finishing s.cfg.latency.fill (response .ok 0)) } ∧
    (s.pix.wf → ∀ j, (s.pix.fill s.cfg.n rgb).read j = if j < s.cfg.n then rgb else s.pix.read j) ∧
    (s.cfg.n = 1 → s.pix.fill s.cfg.n rgb = s.pix.write 0 rgb)

/-- R83: SETBR. The write at the accepting edge is log 6, the BUSY count log 3. -/
def Obligations.SetbrCopiesThePatternToBright : Prop :=
  ∀ (s : State) (aux : Aux), s.cfg.valid →
    decode (0x03#8 ++ aux ++ 0#16 ++ 0#24) = .ok (.setbr aux) ∧
    exec (.setbr aux) s =
      .next { s with
        bright := aux
        hs := .busy (.finishing s.cfg.latency.setbr (response .ok 0)) }

/-- R84: SNAP, in range and out of range. The read at the accepting edge is log 6, the BUSY count log 3. -/
def Obligations.SnapAnswersTheScaledColour : Prop :=
  ∀ (s : State) (idx : Index), s.cfg.valid →
    decode (0x04#8 ++ 0#16 ++ idx ++ 0#24) = .ok (.snap idx) ∧
    (idx.toNat < s.cfg.n →
      exec (.snap idx) s =
        .next { s with
          hs := .busy (.finishing s.cfg.latency.snap
            (response .ok (scaleBrColour (s.pix.read idx.toNat) s.bright))) } ∧
      (s.bright = 0x0100 → scaleBrColour (s.pix.read idx.toNat) s.bright = s.pix.read idx.toNat)) ∧
    (s.cfg.n ≤ idx.toNat →
      exec (.snap idx) s =
        .next { s with hs := .busy (.finishing s.cfg.latency.outOfRange (response .outOfRange (idx.setWidth 24))) })

/-- R90: SETP; 100 percent is SET's colour, 0 and every negative percentage is black. The write at the accepting edge is
log 6, the BUSY count log 3. -/
def Obligations.SetpWritesThePercentageScaledColour : Prop :=
  ∀ (s : State) (idx : Index) (rgb : Colour) (pct : Aux), s.cfg.valid →
    decode (0x05#8 ++ pct ++ idx ++ rgb) = .ok (.setp idx rgb pct) ∧
    (idx.toNat < s.cfg.n →
      exec (.setp idx rgb pct) s =
        .next { s with
          pix := s.pix.write idx.toNat (scalePctColour rgb (sint16 pct))
          hs := .busy (.finishing s.cfg.latency.setp (response .ok 0)) } ∧
      (s.pix.wf → ∀ j,
        (s.pix.write idx.toNat (scalePctColour rgb (sint16 pct))).read j =
          if j = idx.toNat then scalePctColour rgb (sint16 pct) else s.pix.read j)) ∧
    (sint16 pct = 100 → scalePctColour rgb (sint16 pct) = rgb) ∧
    (sint16 pct ≤ 0 → scalePctColour rgb (sint16 pct) = 0) ∧
    (s.cfg.n ≤ idx.toNat →
      exec (.setp idx rgb pct) s =
        .next { s with hs := .busy (.finishing s.cfg.latency.outOfRange (response .outOfRange (idx.setWidth 24))) })

/-- R102, R104, R108, R134: the edge that accepts RENDER asks the oracle, which gives every answer of its domain and no
other (its pin holds the answer: log 4; a number outside the domain reads as none: log 5), and begins the
lead-in, or, where `L_START` is 0, the first bit of pixel 0 or (answer 0) the latch gap; `PIX` and `BRIGHT` stay. That the
oracle is asked at the accepting edge is log 23. -/
def Obligations.RenderBeginsItsFrame : Prop :=
  ∀ s : State, s.cfg.valid →
    decode 0x0600000000000000 = .ok .render ∧
    underOk s.cfg s.oracle ∧ (s.cfg.canUnderrun = false → s.oracle = none) ∧
    (s.pins.underrun = none → s.oracle = none) ∧
    (∀ k, s.pins.underrun = some k → k < s.cfg.n → s.cfg.canUnderrun = true → s.oracle = some k) ∧
    (1 ≤ s.cfg.lStart → exec .render s = .next { s with hs := .busy (.leadIn s.cfg.lStart s.oracle) }) ∧
    (s.cfg.lStart = 0 → s.oracle = some 0 →
      exec .render s =
        .next { s with enc := { s.enc with phase := .latch, cnt := 0 }, hs := .busy (.sending (some 0)) }) ∧
    (s.cfg.lStart = 0 → s.oracle ≠ some 0 →
      exec .render s =
        .next { s with
          enc := ⟨.data, 0, 23, .a, 0, wireWordOf s.cfg s.bright (s.pix.read 0)⟩
          hs := .busy (.sending s.oracle) })

/-- R121: WHEEL. The BUSY count is log 3. -/
def Obligations.WheelAnswersTheWheelColour : Prop :=
  ∀ (s : State) (pos : Aux), s.cfg.valid →
    decode (0x07#8 ++ pos ++ 0#16 ++ 0#24) = .ok (.wheel pos) ∧
    exec (.wheel pos) s =
      .next { s with hs := .busy (.finishing s.cfg.latency.wheel (response .ok (wheel (sint16 pos)))) } ∧
    (sint16 pos < 0 ∨ 255 < sint16 pos → wheel (sint16 pos) = 0)

/-- R41, R81, R82, R90: SET and SETP leave every cell but the one the index names, FILL every cell that is not below N;
none of the three touches `BRIGHT`, `ENC`, the configuration or the inputs. That `exec` makes the write at the accepting
edge is the model's choice (log 6). -/
def Obligations.FrameOfStoringCommands : Prop :=
  ∀ s t : State, s.pix.wf →
    (∀ (idx : Index) (rgb : Colour), exec (.set idx rgb) s = .next t →
      (∀ j, j ≠ indexValue idx → t.pix.read j = s.pix.read j) ∧
      t.bright = s.bright ∧ t.enc = s.enc ∧ t.cfg = s.cfg ∧ t.inputs = s.inputs ∧ t.cycle = s.cycle) ∧
    (∀ (idx : Index) (rgb : Colour) (pct : Aux), exec (.setp idx rgb pct) s = .next t →
      (∀ j, j ≠ indexValue idx → t.pix.read j = s.pix.read j) ∧
      t.bright = s.bright ∧ t.enc = s.enc ∧ t.cfg = s.cfg ∧ t.inputs = s.inputs ∧ t.cycle = s.cycle) ∧
    (∀ rgb : Colour, exec (.fill rgb) s = .next t →
      (∀ j, s.cfg.n ≤ j → t.pix.read j = s.pix.read j) ∧
      t.bright = s.bright ∧ t.enc = s.enc ∧ t.cfg = s.cfg ∧ t.inputs = s.inputs ∧ t.cycle = s.cycle)

/-- R41, R48, R83, R84, R102, R121: SETBR, SNAP, WHEEL and RENDER leave every cell; only SETBR touches `BRIGHT` and only
RENDER touches `ENC`. That `exec` makes SETBR's write at the accepting edge is the model's choice (log 6). -/
def Obligations.FrameOfOtherCommands : Prop :=
  ∀ (s t : State) (i : Instr),
    ((∃ aux, i = .setbr aux) ∨ (∃ idx, i = .snap idx) ∨ (∃ pos, i = .wheel pos) ∨ i = .render) →
    exec i s = .next t →
      (∀ j, t.pix.read j = s.pix.read j) ∧ t.pix = s.pix ∧ t.cfg = s.cfg ∧ t.inputs = s.inputs ∧ t.cycle = s.cycle ∧
      ((∀ aux, i ≠ .setbr aux) → t.bright = s.bright) ∧ (i ≠ .render → t.enc = s.enc)

/-- R41, R47, R54, R111: over the whole machine, with no reset at the edge, `PIX` changes only where SET, SETP or FILL
is accepted and `BRIGHT` only where SETBR is; so nothing changes either while a RENDER sends. That the change comes at the
edge that accepts the command, and in no BUSY cycle after it, is the model's choice (log 6): no rule says it. -/
def Obligations.PixelsAndBrightnessChangeOnlyByTheirCommands : Prop :=
  ∀ s t : State, s.pins.rst = false → step s = .next t →
    (t.pix ≠ s.pix → s.accepting ∧
      ((∃ idx rgb, decode s.pins.cmdData = .ok (.set idx rgb)) ∨
        (∃ idx rgb pct, decode s.pins.cmdData = .ok (.setp idx rgb pct)) ∨
        ∃ rgb, decode s.pins.cmdData = .ok (.fill rgb))) ∧
    (t.bright ≠ s.bright → s.accepting ∧ decode s.pins.cmdData = .ok (.setbr t.bright))

/-- R48: every command executed twice leaves `PIX` and `BRIGHT` as executed once (the write is in `exec`, the accepting edge, by the model's choice: log 6). -/
def Obligations.WritesAreIdempotent : Prop :=
  ∀ (s t u : State) (i : Instr), s.pix.wf → exec i s = .next t → exec i t = .next u →
    u.pix = t.pix ∧ u.bright = t.bright

/-- R81, R84, R86 (the source's round trip, S6): with brightness 1 SNAP answers exactly the colour SET wrote. The write and the
read at the accepting edge are log 6, the BUSY count log 3. -/
def Obligations.SetThenSnapGivesTheColourBack : Prop :=
  ∀ (s : State) (idx : Index) (rgb : Colour), s.cfg.valid → s.pix.wf → idx.toNat < s.cfg.n → s.bright = 0x0100 →
    ∃ t u, exec (.set idx rgb) s = .next t ∧ exec (.snap idx) t = .next u ∧
      u.hs = .busy (.finishing s.cfg.latency.snap (response .ok rgb))

/-- R85: the snapshot is, cell by cell, what SNAP answers (the BUSY count of SNAP is log 3). -/
def Obligations.SnapshotIsWhatSnapAnswers : Prop :=
  ∀ s : State, s.cfg.valid → s.snapshot.length = s.cfg.n ∧
    ∀ idx : Index, idx.toNat < s.cfg.n →
      s.snapshot[idx.toNat]? = some (scaleBrColour (s.pix.read idx.toNat) s.bright) ∧
      ∃ t colour, exec (.snap idx) s = .next t ∧ s.snapshot[idx.toNat]? = some colour ∧
        t.hs = .busy (.finishing s.cfg.latency.snap (response .ok colour))

/-! The scalers and the wheel. -/

/-- R80: the brightness scaler, its corners, and that clamping and truncating may be exchanged. -/
def Obligations.ScaleBrFollowsItsFormula : Prop :=
  (∀ (c : Channel) (b : BitVec 16),
    ((scaleBr c b).toNat : Int) = clamp (trunc ((c.toNat : Int) * sint16 b) 256) 0 255 ∧
    (b = 0x0100 → scaleBr c b = c) ∧ (b = 0x0000 → scaleBr c b = 0) ∧ (0x8000 ≤ b.toNat → scaleBr c b = 0) ∧
    (255 * 256 ≤ (c.toNat : Int) * sint16 b → scaleBr c b = 255) ∧ (c = 0 → scaleBr c b = 0)) ∧
  (∀ (rgb : Colour) (b : BitVec 16),
    scaleBrColour rgb b = scaleBr (red rgb) b ++ scaleBr (green rgb) b ++ scaleBr (blue rgb) b) ∧
  (∀ (num : Int) (den : Nat), 1 ≤ den →
    clamp (trunc num den) 0 255 = trunc (clamp num 0 (255 * den)) den) ∧
  scaleBr 200 0x0080 = 100

/-- R86: the laws of the brightness scaler, items a, c, e, f, g and h. -/
def Obligations.ScaleBrObeysItsLaws : Prop :=
  (∀ (c : Channel) (b : BitVec 16),
    (-8355840 ≤ (c.toNat : Int) * sint16 b ∧ (c.toNat : Int) * sint16 b ≤ 8355585) ∧
    (b.toNat ≤ 0x0100 → (scaleBr c b).toNat = c.toNat * b.toNat / 256 ∧ (scaleBr c b).toNat ≤ c.toNat) ∧
    ((scaleBr c b).toNat : Int) = clamp ((c.toNat : Int) * sint16 b / 256) 0 255) ∧
  (∀ (c c' : Channel) (b : BitVec 16), 0 ≤ sint16 b → c.toNat ≤ c'.toNat →
    (scaleBr c b).toNat ≤ (scaleBr c' b).toNat) ∧
  (∀ (c : Channel) (b b' : BitVec 16), sint16 b ≤ sint16 b' → (scaleBr c b).toNat ≤ (scaleBr c b').toNat) ∧
  (∀ b : BitVec 16, b.toNat ≤ 0x0100 → ((∀ c, scaleBr c b = c) ↔ b = 0x0100)) ∧
  scaleBr 255 0x00FF = 254 ∧ scaleBr 1 0x00FF = 0

/-- R91: the percentage scaler and its corners. -/
def Obligations.ScalePctFollowsItsFormula : Prop :=
  (∀ (c : Channel) (p : Int),
    ((scalePct c p).toNat : Int) = clamp (trunc ((c.toNat : Int) * p) 100) 0 255 ∧
    (p = 100 → scalePct c p = c) ∧ (p ≤ 0 → scalePct c p = 0) ∧
    (25500 ≤ (c.toNat : Int) * p → scalePct c p = 255) ∧ (c = 0 → scalePct c p = 0)) ∧
  (∀ (rgb : Colour) (p : Int),
    scalePctColour rgb p = scalePct (red rgb) p ++ scalePct (green rgb) p ++ scalePct (blue rgb) p) ∧
  scalePct 255 77 = 196

/-- R92: the laws of the percentage scaler. -/
def Obligations.ScalePctObeysItsLaws : Prop :=
  (∀ (c : Channel) (aux : Aux),
    -8355840 ≤ (c.toNat : Int) * sint16 aux ∧ (c.toNat : Int) * sint16 aux ≤ 8355585) ∧
  (∀ (c : Channel) (p : Int),
    ((scalePct c p).toNat : Int) = clamp ((c.toNat : Int) * p / 100) 0 255 ∧
    (0 ≤ p → p ≤ 100 → ((scalePct c p).toNat : Int) = (c.toNat : Int) * p / 100 ∧ (scalePct c p).toNat ≤ c.toNat)) ∧
  (∀ (c c' : Channel) (p : Int), 0 ≤ p → c.toNat ≤ c'.toNat → (scalePct c p).toNat ≤ (scalePct c' p).toNat) ∧
  (∀ (c : Channel) (p p' : Int), p ≤ p' → (scalePct c p).toNat ≤ (scalePct c p').toNat) ∧
  scalePct 255 1 = 2 ∧ scalePct 199 1 = 1 ∧ scalePct 1 99 = 0 ∧ scalePct 3 33 = 0 ∧ scalePct 3 34 = 1

/-- R120: the colour wheel, channel by channel. -/
def Obligations.WheelFollowsItsFormula : Prop :=
  ∀ p : Int,
    (p < 0 ∨ 255 < p → wheel p = 0) ∧
    (0 ≤ p → p < 85 → ((red (wheel p)).toNat : Int) = 255 - 3 * p ∧ ((green (wheel p)).toNat : Int) = 3 * p ∧
      (blue (wheel p)).toNat = 0) ∧
    (85 ≤ p → p < 170 → (red (wheel p)).toNat = 0 ∧ ((green (wheel p)).toNat : Int) = 255 - 3 * (p - 85) ∧
      ((blue (wheel p)).toNat : Int) = 3 * (p - 85)) ∧
    (170 ≤ p → p ≤ 255 → ((red (wheel p)).toNat : Int) = 3 * (p - 170) ∧ (green (wheel p)).toNat = 0 ∧
      ((blue (wheel p)).toNat : Int) = 255 - 3 * (p - 170))

/-- R122: the properties of the wheel, items a to f. -/
def Obligations.WheelIsContinuousAndCloses : Prop :=
  (wheel 0 = 0xFF0000 ∧ wheel 85 = 0x00FF00 ∧ wheel 170 = 0x0000FF ∧ wheel 255 = 0xFF0000) ∧
  (∀ p : Int, 0 ≤ p → p ≤ 255 →
    (red (wheel p)).toNat + (green (wheel p)).toNat + (blue (wheel p)).toNat = 255 ∧
    ((red (wheel p)).toNat = 0 ∨ (green (wheel p)).toNat = 0 ∨ (blue (wheel p)).toNat = 0) ∧
    (red (wheel p)).toNat % 3 = 0 ∧ (green (wheel p)).toNat % 3 = 0 ∧ (blue (wheel p)).toNat % 3 = 0 ∧
    wheel p ≠ 0) ∧
  (∀ p : Int, 0 ≤ p → p < 255 →
    let d (ch : Colour → Channel) : Nat := ((ch (wheel p)).toNat - (ch (wheel (p + 1))).toNat) +
      ((ch (wheel (p + 1))).toNat - (ch (wheel p)).toNat)
    [d red, d green, d blue].Perm [0, 3, 3]) ∧
  wheel 255 = wheel 0 ∧ wheel 256 = 0 ∧
  (∀ p q : Int, 0 ≤ p → p < q → q ≤ 255 → wheel p = wheel q → p = 0 ∧ q = 255)

/-- R123: the table of 43_color_wheel section 3 is the formula, entry for entry, with black outside. -/
def Obligations.WheelTableIsTheFormula : Prop :=
  wheelTable.length = 256 ∧ (∀ k : Fin 256, wheelTable[k.val]? = some (wheel (k.val : Int))) ∧
    ∀ p : Int, p < 0 ∨ 255 < p → wheelByTable p = wheel p

/-- R124: the host's hue offset is always a position of the wheel, so `rainbowCycle` never shows black. -/
def Obligations.HueOffsetIsNeverBlack : Prop :=
  ∀ n index phase : Nat, hueOffset n index phase < 256 ∧ wheel (hueOffset n index phase : Int) ≠ 0

/-! The wire (42_protocol_encoder). -/

/-- R95: the wire words are the scaled cells in order, the channels as `WIRE_ORDER` says. The clause that
`State.reset` has `GRB` is the model's choice: it rests on log 17 (PRESUMED: the order comes from general knowledge, R43)
and on log 1 (`State.reset` carries TC0). -/
def Obligations.WireWordsFollowWireOrder : Prop :=
  (∀ (s : State) (i : Nat), i < s.cfg.n →
    let scaled := scaleBrColour (s.pix.read i) s.bright
    let r := red scaled
    let g := green scaled
    let b := blue scaled
    s.wireWord? i = s.wireWords[i]? ∧
    s.wireWords[i]? =
      some (match s.cfg.wireOrder with
        | .rgb => r ++ g ++ b
        | .rbg => r ++ b ++ g
        | .grb => g ++ r ++ b
        | .gbr => g ++ b ++ r
        | .brg => b ++ r ++ g
        | .bgr => b ++ g ++ r)) ∧
  State.reset.cfg.wireOrder = .grb ∧
  arrange .grb (scaleBrColour 0xC86432 0x0080) = 0x326419 ∧ arrange .rgb (scaleBrColour 0xC86432 0x0080) = 0x643219

/-- R96: the frame's bits are the words' in order, each from bit 23 down to bit 0, and nothing else. -/
def Obligations.FrameBitsAreTheWordsMsbFirst : Prop :=
  ∀ ws : List WireWord, (frameBits ws).length = 24 * ws.length ∧
    ∀ i j : Nat, j < 24 → (frameBits ws)[24 * i + j]? = (ws[i]?).map fun w => w.getLsbD (23 - j)

/-- R97, R98: the shape of a bit cell: a one is a long high then a short low, a zero a short high then a long low, and
every cell has the same length. -/
def Obligations.BitCellsHaveTheirShape : Prop :=
  ∀ c : Config, c.valid →
    (∀ (b : Bool) (k : Nat), (cell c b)[k]? =
      if k < c.t1 then some true else if k < c.t1 + c.t2 then some b
      else if k < c.t1 + c.t2 + c.t3 then some false else none) ∧
    runLengths (cell c true) = [(true, c.t1 + c.t2), (false, c.t3)] ∧
    runLengths (cell c false) = [(true, c.t1), (false, c.t2 + c.t3)] ∧
    c.t1 < c.t1 + c.t2 ∧ c.t3 < c.t2 + c.t3 ∧ c.t3 < c.t1 + c.t2 ∧ c.t1 < c.t2 + c.t3

/-- R99: length, rising edges and high cycles of the data waveform. -/
def Obligations.DataWaveformCounts : Prop :=
  ∀ (c : Config) (ws : List WireWord), c.valid →
    (waveData c ws).length = 24 * ws.length * (c.t1 + c.t2 + c.t3) ∧
    risingEdges false (waveData c ws) = 24 * ws.length ∧
    highCycles (waveData c ws) = 24 * ws.length * c.t1 + c.t2 * popcount ws

/-- R103: the exact length of a RENDER on the wire, for each answer of the oracle. -/
def Obligations.RenderLengthIsExact : Prop :=
  (∀ s : State,
    (frameWave s.cfg (s.wireWords.take (pixelsSent s.cfg none))).length =
      24 * s.cfg.n * (s.cfg.t1 + s.cfg.t2 + s.cfg.t3) + s.cfg.tLatch + s.cfg.tSettle ∧
    ∀ k, k < s.cfg.n →
      (frameWave s.cfg (s.wireWords.take (pixelsSent s.cfg (some k)))).length =
        24 * k * (s.cfg.t1 + s.cfg.t2 + s.cfg.t3) + s.cfg.tLatch + s.cfg.tSettle) ∧
  frameLen Config.tc0 4 = 295 ∧ frameLen { Config.tc0 with n := 60 } 60 = 4327

/-- R104: the lead-in and the lead-out only lengthen the low runs at the two ends of a RENDER's waveform. -/
def Obligations.LeadInAndLeadOutOnlyLengthenLowRuns : Prop :=
  ∀ (c : Config) (ws : List WireWord) (under : Option Nat) (start finish : Nat),
    trimLow (renderWave { c with lStart := start, lEnd := finish } ws under) =
      trimLow (frameWave c (ws.take (pixelsSent c under)))

/-- R20, R26, R29 to R32, R51, R73, R102, R108, R160: the cycle-by-cycle machine does with every word exactly what the
commands' pseudocode says: LPE is BUSY for the command's cycles, `dout` and `tx_active` are its waveform in them, and
the response, `PIX` and `BRIGHT` are its own after them. The count of the latency in BUSY cycles is log 3, the constants of
the illegal and the out-of-range answer are log 22; that the run is the same for a host that breaks the hold rule of R28 in
its BUSY cycles is log 25. -/
def Obligations.CycleMachineRefinesTheCommands : Prop :=
  ∀ s : State, s.Inv → s.accepting → s.noReset ((s.answer s.pins.cmdData).busy + 1) →
    ∃ t u, step s = .next t ∧
      trace State.dout (s.answer s.pins.cmdData).busy t = (s.answer s.pins.cmdData).wave ∧
      trace State.txActive (s.answer s.pins.cmdData).busy t = (s.answer s.pins.cmdData).tx ∧
      trace State.cmdReady (s.answer s.pins.cmdData).busy t = emit false (s.answer s.pins.cmdData).busy ∧
      trace State.rspValid (s.answer s.pins.cmdData).busy t = emit false (s.answer s.pins.cmdData).busy ∧
      runFor (s.answer s.pins.cmdData).busy t = some u ∧ u.hs = .resp (s.answer s.pins.cmdData).word ∧
      u.pix = (s.answer s.pins.cmdData).pix ∧ u.bright = (s.answer s.pins.cmdData).bright ∧
      u.enc.phase = .idle ∧ u.cfg = s.cfg

/-- R102, R107, R111: RENDER puts on `dout` the lead-in, the data of the pixels sent, the latch gap, the settle time and
the lead-out, built from `PIX` and `BRIGHT` as they stand when it is accepted; it then answers N, or
`TIMING_VIOLATION` with the whole pixels sent, and has written nothing. -/
def Obligations.RenderPutsItsFrameOnTheWire : Prop :=
  ∀ s : State, s.Inv → s.accepting → decode s.pins.cmdData = .ok .render →
    s.noReset (renderLen s.cfg s.oracle + 1) →
    ∃ t u m answer,
      (s.oracle = none ∧ m = s.cfg.n ∧ answer = response .ok (BitVec.ofNat 24 s.cfg.n) ∨
        ∃ k, s.oracle = some k ∧ k < s.cfg.n ∧ m = k ∧ answer = response .timingViolation (BitVec.ofNat 24 k)) ∧
      step s = .next t ∧
      trace State.dout (renderLen s.cfg s.oracle) t =
        emit false s.cfg.lStart ++ waveData s.cfg (s.wireWords.take m) ++ emit false s.cfg.tLatch ++
          emit false s.cfg.tSettle ++ emit false s.cfg.lEnd ∧
      trace State.txActive (renderLen s.cfg s.oracle) t =
        emit false s.cfg.lStart ++ emit true (24 * m * (s.cfg.t1 + s.cfg.t2 + s.cfg.t3)) ++
          emit false (s.cfg.tLatch + s.cfg.tSettle + s.cfg.lEnd) ∧
      runFor (renderLen s.cfg s.oracle) t = some u ∧ u.hs = .resp answer ∧ u.pix = s.pix ∧ u.bright = s.bright ∧
      u.enc.phase = .idle ∧ u.dout = false

/-- R107, R110: a RENDER that answers `OK` has put exactly `24 * N` cells on the wire and says N; one that answers
`TIMING_VIOLATION` fewer, whole pixels only, and says how many; never more. -/
def Obligations.OkMeansExactlyNPixels : Prop :=
  ∀ s : State, s.Inv → s.accepting → decode s.pins.cmdData = .ok .render →
    s.noReset (renderLen s.cfg s.oracle + 1) →
    ∃ t u w, step s = .next t ∧ runFor (renderLen s.cfg s.oracle) t = some u ∧ u.hs = .resp w ∧
      (statusOf w = 0x00 ∧ (dataOf w).toNat = s.cfg.n ∨ statusOf w = 0x02 ∧ (dataOf w).toNat < s.cfg.n) ∧
      risingEdges false (trace State.dout (renderLen s.cfg s.oracle) t) = 24 * (dataOf w).toNat

/-- R100, R101, R105: from the first cycle of the latch gap the line is low and the port closed for the whole latch gap
and settle time, so no frame begins in them. -/
def Obligations.LatchGapIsNeverCut : Prop :=
  ∀ s : State, s.Inv → s.enc.phase = .latch → s.enc.cnt = 0 → s.noReset (s.cfg.tLatch + s.cfg.tSettle) →
    (∀ j, j < s.cfg.tLatch + s.cfg.tSettle → ∃ t, runFor j s = some t ∧ t.dout = false ∧ t.txActive = false ∧
      t.cmdReady = false ∧ t.rspValid = false) ∧
    ∃ t, runFor (s.cfg.tLatch + s.cfg.tSettle) s = some t ∧ t.enc.phase = .idle ∧ t.dout = false

/-- R31: `dout` is 1 only in phase A of a bit cell and in phase B of a cell whose bit is 1, so only while a RENDER
sends; it is 0 in the latch gap, in the settle time, while a response waits, while any other work keeps LPE BUSY, and
in READY. -/
def Obligations.DoutIsHighOnlyInBitCells : Prop :=
  ∀ s : State,
    (s.dout = true ↔ s.enc.phase = .data ∧ (s.enc.sub = .a ∨ (s.enc.sub = .b ∧ s.enc.shr.getLsbD 23 = true))) ∧
    (s.Inv → s.dout = true → ∃ under, s.hs = .busy (.sending under))

/-- R106: `tx_active` is 1 in exactly the cycles of the DATA phase. -/
def Obligations.TxActiveIsTheDataPhase : Prop :=
  ∀ s : State, (s.txActive = true ↔ s.enc.phase = .data) ∧ (s.dout = true → s.txActive = true)

/-! Reset (10_state R34, 70_reset_and_hazards). -/

/-- R151, R153: an edge that samples `rst = 1` takes every piece of state to its reset value, whatever was going on. -/
def Obligations.ResetTakesEveryStateToItsResetValue : Prop :=
  ∀ s : State, s.cfg.valid → s.pins.rst = true →
    ∃ t, step s = .next t ∧ (∀ i, t.pix.read i = 0) ∧ t.bright = 0x0100 ∧ t.enc.phase = .idle ∧ t.dout = false ∧
      t.txActive = false ∧ t.rspValid = false ∧ t.cmdReady = false ∧ t.hs = .busy .inReset ∧ t.cfg = s.cfg

/-- R152, R153: from a reset edge, with `rst` back at 0, the port stays closed, nothing is answered and `dout` is low
for that cycle and the `T_LATCH + T_SETTLE` cycles after it; then LPE is READY in its reset state. How the hold is counted
is log 9. -/
def Obligations.ResetHoldKeepsThePortClosed : Prop :=
  ∀ s t : State, s.cfg.valid → s.pins.rst = true → step s = .next t →
    t.noReset (t.cfg.tLatch + t.cfg.tSettle + 1) →
    (∀ j, j ≤ t.cfg.tLatch + t.cfg.tSettle → ∃ u, runFor j t = some u ∧ u.cmdReady = false ∧ u.dout = false ∧
      u.rspValid = false ∧ u.txActive = false) ∧
    ∃ u, runFor (t.cfg.tLatch + t.cfg.tSettle + 1) t = some u ∧ u.hs = .ready ∧ u.enc.phase = .idle ∧
      (∀ i, u.pix.read i = 0) ∧ u.bright = 0x0100

/-- R34: the reset values, for every configuration, and READY once the reset hold has run (counted as log 9 says). -/
def Obligations.ResetStateHoldsTheSpecValues : Prop :=
  ∀ c : Config, c.valid →
    (∀ i, (State.resetWith c).pix.read i = 0x000000) ∧ (State.resetWith c).bright = 0x0100 ∧
    (State.resetWith c).enc.phase = .idle ∧ (State.resetWith c).cmdReady = false ∧ (State.resetWith c).dout = false ∧
    (State.resetWith c).txActive = false ∧ (State.resetWith c).rspValid = false ∧
    ∃ u, runFor (c.tLatch + c.tSettle + 1) (State.resetWith c) = some u ∧ u.hs = .ready ∧ u.enc.phase = .idle ∧
      (∀ i, u.pix.read i = 0x000000) ∧ u.bright = 0x0100 ∧ u.cfg = c

/-! The whole machine. -/

/-- The invariant holds right after reset, for every configuration of LPE, `State.reset`'s among them (which is TC0 by the
model's choice: log 1). -/
def Obligations.InvariantHoldsAtReset : Prop :=
  (∀ c : Config, c.valid → (State.resetWith c).Inv) ∧ State.reset.Inv

/-- Every step keeps the invariant, whatever the pins do (a host that breaks the hold rule of R28 among them: log 25): `PIX` in its canonical form below N, the encoder in its
bounds with the right bits left in its shift register, the port and the encoder fitting together (R25, R26, R30, R67). -/
def Obligations.StepKeepsTheInvariant : Prop :=
  ∀ s t : State, s.Inv → step s = .next t → t.Inv

/-- R68, R132, R138, R139: nothing stops LPE: no step of a state of the invariant is a fault or a refusal, whatever the
pins do (a host that breaks the hold rule of R28 among them: log 25). -/
def Obligations.InvariantStatesNeverStop : Prop :=
  ∀ s : State, s.Inv → ∃ t, step s = .next t

/-- R6, R98, V7: a record that breaks a constraint is no configuration of LPE, and the model gives it no step. -/
def Obligations.InvalidConfigurationIsRefused : Prop :=
  ∀ s : State,
    (s.cfg.n = 0 ∨ 65536 < s.cfg.n ∨ s.cfg.t1 = 0 ∨ s.cfg.t2 = 0 ∨ s.cfg.t3 = 0 ∨ s.cfg.t1 + s.cfg.t2 ≤ s.cfg.t3 ∨
      s.cfg.t2 + s.cfg.t3 ≤ s.cfg.t1 ∨ s.cfg.tLatch = 0) →
    step s = .refused .notAConfiguration

/-- R33: no step changes the configuration, a reset no more than a command (that State carries it is log 1). -/
def Obligations.ConfigurationNeverChanges : Prop :=
  ∀ s t : State, step s = .next t → t.cfg = s.cfg

/-- R26, V3: the fields of `ENC` that nothing reads change nothing: two states that differ in them alone show the same
on every output pin and step to two states that differ in them alone. -/
def Obligations.UnreadEncoderFieldsChangeNothing : Prop :=
  ∀ s t : State, s.sameButUnreadEnc t →
    (s.dout = t.dout ∧ s.txActive = t.txActive ∧ s.cmdReady = t.cmdReady ∧ s.rspValid = t.rspValid ∧
      s.rspData = t.rspData) ∧
    ∀ s', step s = .next s' → ∃ t', step t = .next t' ∧ s'.sameButUnreadEnc t'
end

