-- ==== Sys2Proof/Laws/Config.lean ====
section
/-! SUPPORT. What a configuration of LPE gives. -/

namespace Sys2Proof

theorem Config.valid_iff (c : Config) :
    c.valid = true ↔
      (1 ≤ c.n ∧ c.n ≤ 65536) ∧ (1 ≤ c.t1 ∧ 1 ≤ c.t2 ∧ 1 ≤ c.t3) ∧ (c.t3 < c.t1 + c.t2 ∧ c.t1 < c.t2 + c.t3) ∧
        1 ≤ c.tLatch ∧ c.latency.Valid :=
  decide_eq_true_iff

theorem Config.n_pos {c : Config} (h : c.valid = true) : 1 ≤ c.n := (c.valid_iff.1 h).1.1

theorem Config.n_le {c : Config} (h : c.valid = true) : c.n ≤ 65536 := (c.valid_iff.1 h).1.2

theorem Config.tLatch_pos {c : Config} (h : c.valid = true) : 1 ≤ c.tLatch := (c.valid_iff.1 h).2.2.2.1

theorem Config.latency_valid {c : Config} (h : c.valid = true) : c.latency.Valid := (c.valid_iff.1 h).2.2.2.2

end Sys2Proof
end

