-- ==== Sys2Proof/Laws/Decode.lean ====
section
/-! SUPPORT. Fields and words: taking a word apart and putting it together undo each other, and what a decoding says of the
fields. -/

namespace Sys2Proof

theorem fieldsOf_word (f : Fields) : fieldsOf f.word = f := by
  obtain ⟨op, aux, idx, rgb⟩ := f
  simp only [fieldsOf, Fields.word, Fields.mk.injEq]
  refine ⟨?_, ?_, ?_, ?_⟩ <;>
  · apply BitVec.eq_of_getLsbD_eq
    intro i hi
    simp only [BitVec.getLsbD_extractLsb', BitVec.getLsbD_append]
    repeat' split
    all_goals first
      | omega
      | (simp only [hi, decide_true, Bool.true_and]; congr 1; omega)

theorem word_fieldsOf (w : CommandWord) : (fieldsOf w).word = w := by
  apply BitVec.eq_of_getLsbD_eq
  intro i hi
  simp only [fieldsOf, Fields.word, BitVec.getLsbD_append, BitVec.getLsbD_extractLsb']
  repeat' split
  all_goals
    have h : ∀ a b : Nat, a < b → decide (a < b) = true := fun a b => decide_eq_true
    rw [h _ _ (by omega), Bool.true_and]
    congr 1
    omega

/-- The reserved fields of a decoded word are zero, and the command is the one named. -/
theorem orReserved_eq_ok {reserved : List (Bool × Illegal)} {i j : Instr} (h : orReserved reserved i = .ok j) :
    (∀ r ∈ reserved, r.1 = true) ∧ j = i := by
  induction reserved with
  | nil => exact ⟨by simp, by simpa [orReserved] using h.symm⟩
  | cons r rest ih =>
    unfold orReserved at h
    split at h
    · obtain ⟨h1, h2⟩ := ih h
      exact ⟨List.forall_mem_cons.2 ⟨‹_›, h1⟩, h2⟩
    · simp at h

end Sys2Proof
end

