-- ==== Sys2Proof/Laws/State.lean ====
section
/-! SUPPORT. What each field of State is after each update: one lemma for each field and update, so that no proof unfolds
an update. -/

namespace Sys2Proof.Machine

@[simp] theorem State.setPix_cfg (s : State) (m : Memory) : (s.setPix m).cfg = s.cfg := rfl
@[simp] theorem State.setPix_pix (s : State) (m : Memory) : (s.setPix m).pix = m := rfl
@[simp] theorem State.setPix_bright (s : State) (m : Memory) : (s.setPix m).bright = s.bright := rfl
@[simp] theorem State.setPix_enc (s : State) (m : Memory) : (s.setPix m).enc = s.enc := rfl
@[simp] theorem State.setPix_hs (s : State) (m : Memory) : (s.setPix m).hs = s.hs := rfl
@[simp] theorem State.setPix_inputs (s : State) (m : Memory) : (s.setPix m).inputs = s.inputs := rfl
@[simp] theorem State.setPix_cycle (s : State) (m : Memory) : (s.setPix m).cycle = s.cycle := rfl

@[simp] theorem State.setBright_cfg (s : State) (b : BitVec 16) : (s.setBright b).cfg = s.cfg := rfl
@[simp] theorem State.setBright_pix (s : State) (b : BitVec 16) : (s.setBright b).pix = s.pix := rfl
@[simp] theorem State.setBright_bright (s : State) (b : BitVec 16) : (s.setBright b).bright = b := rfl
@[simp] theorem State.setBright_enc (s : State) (b : BitVec 16) : (s.setBright b).enc = s.enc := rfl
@[simp] theorem State.setBright_hs (s : State) (b : BitVec 16) : (s.setBright b).hs = s.hs := rfl
@[simp] theorem State.setBright_inputs (s : State) (b : BitVec 16) : (s.setBright b).inputs = s.inputs := rfl
@[simp] theorem State.setBright_cycle (s : State) (b : BitVec 16) : (s.setBright b).cycle = s.cycle := rfl

@[simp] theorem State.setEnc_cfg (s : State) (e : Enc) : (s.setEnc e).cfg = s.cfg := rfl
@[simp] theorem State.setEnc_pix (s : State) (e : Enc) : (s.setEnc e).pix = s.pix := rfl
@[simp] theorem State.setEnc_bright (s : State) (e : Enc) : (s.setEnc e).bright = s.bright := rfl
@[simp] theorem State.setEnc_enc (s : State) (e : Enc) : (s.setEnc e).enc = e := rfl
@[simp] theorem State.setEnc_hs (s : State) (e : Enc) : (s.setEnc e).hs = s.hs := rfl
@[simp] theorem State.setEnc_inputs (s : State) (e : Enc) : (s.setEnc e).inputs = s.inputs := rfl
@[simp] theorem State.setEnc_cycle (s : State) (e : Enc) : (s.setEnc e).cycle = s.cycle := rfl

@[simp] theorem State.setHs_cfg (s : State) (h : Handshake) : (s.setHs h).cfg = s.cfg := rfl
@[simp] theorem State.setHs_pix (s : State) (h : Handshake) : (s.setHs h).pix = s.pix := rfl
@[simp] theorem State.setHs_bright (s : State) (h : Handshake) : (s.setHs h).bright = s.bright := rfl
@[simp] theorem State.setHs_enc (s : State) (h : Handshake) : (s.setHs h).enc = s.enc := rfl
@[simp] theorem State.setHs_hs (s : State) (h : Handshake) : (s.setHs h).hs = h := rfl
@[simp] theorem State.setHs_inputs (s : State) (h : Handshake) : (s.setHs h).inputs = s.inputs := rfl
@[simp] theorem State.setHs_cycle (s : State) (h : Handshake) : (s.setHs h).cycle = s.cycle := rfl

@[simp] theorem State.advance_cfg (s : State) : s.advance.cfg = s.cfg := rfl
@[simp] theorem State.advance_pix (s : State) : s.advance.pix = s.pix := rfl
@[simp] theorem State.advance_bright (s : State) : s.advance.bright = s.bright := rfl
@[simp] theorem State.advance_enc (s : State) : s.advance.enc = s.enc := rfl
@[simp] theorem State.advance_hs (s : State) : s.advance.hs = s.hs := rfl
@[simp] theorem State.advance_inputs (s : State) : s.advance.inputs = s.inputs.tail := rfl
@[simp] theorem State.advance_cycle (s : State) : s.advance.cycle = s.cycle + 1 := rfl

@[simp] theorem State.setCell_cfg (s : State) (i : Nat) (v : Colour) : (s.setCell i v).cfg = s.cfg := rfl
@[simp] theorem State.setCell_pix (s : State) (i : Nat) (v : Colour) : (s.setCell i v).pix = s.pix.write i v := rfl
@[simp] theorem State.setCell_bright (s : State) (i : Nat) (v : Colour) : (s.setCell i v).bright = s.bright := rfl
@[simp] theorem State.setCell_enc (s : State) (i : Nat) (v : Colour) : (s.setCell i v).enc = s.enc := rfl
@[simp] theorem State.setCell_hs (s : State) (i : Nat) (v : Colour) : (s.setCell i v).hs = s.hs := rfl
@[simp] theorem State.setCell_inputs (s : State) (i : Nat) (v : Colour) : (s.setCell i v).inputs = s.inputs := rfl
@[simp] theorem State.setCell_cycle (s : State) (i : Nat) (v : Colour) : (s.setCell i v).cycle = s.cycle := rfl

@[simp] theorem State.finishIn_cfg (s : State) (k : Nat) (w : ResponseWord) : (s.finishIn k w).cfg = s.cfg := rfl
@[simp] theorem State.finishIn_pix (s : State) (k : Nat) (w : ResponseWord) : (s.finishIn k w).pix = s.pix := rfl
@[simp] theorem State.finishIn_bright (s : State) (k : Nat) (w : ResponseWord) : (s.finishIn k w).bright = s.bright := rfl
@[simp] theorem State.finishIn_enc (s : State) (k : Nat) (w : ResponseWord) : (s.finishIn k w).enc = s.enc := rfl
@[simp] theorem State.finishIn_hs (s : State) (k : Nat) (w : ResponseWord) : (s.finishIn k w).hs = (if k = 0 then .resp w else .busy (.finishing k w)) := rfl
@[simp] theorem State.finishIn_inputs (s : State) (k : Nat) (w : ResponseWord) : (s.finishIn k w).inputs = s.inputs := rfl
@[simp] theorem State.finishIn_cycle (s : State) (k : Nat) (w : ResponseWord) : (s.finishIn k w).cycle = s.cycle := rfl

@[simp] theorem State.respond_cfg (s : State) (k : Nat) (st : Status) (d : BitVec 24) : (s.respond k st d).cfg = s.cfg := rfl
@[simp] theorem State.respond_pix (s : State) (k : Nat) (st : Status) (d : BitVec 24) : (s.respond k st d).pix = s.pix := rfl
@[simp] theorem State.respond_bright (s : State) (k : Nat) (st : Status) (d : BitVec 24) : (s.respond k st d).bright = s.bright := rfl
@[simp] theorem State.respond_enc (s : State) (k : Nat) (st : Status) (d : BitVec 24) : (s.respond k st d).enc = s.enc := rfl
@[simp] theorem State.respond_hs (s : State) (k : Nat) (st : Status) (d : BitVec 24) : (s.respond k st d).hs = (if k = 0 then .resp (response st d) else .busy (.finishing k (response st d))) := rfl
@[simp] theorem State.respond_inputs (s : State) (k : Nat) (st : Status) (d : BitVec 24) : (s.respond k st d).inputs = s.inputs := rfl
@[simp] theorem State.respond_cycle (s : State) (k : Nat) (st : Status) (d : BitVec 24) : (s.respond k st d).cycle = s.cycle := rfl

@[simp] theorem State.raise_cfg (s : State) (k : Nat) (e : Error) : (s.raise k e).cfg = s.cfg := rfl
@[simp] theorem State.raise_pix (s : State) (k : Nat) (e : Error) : (s.raise k e).pix = s.pix := rfl
@[simp] theorem State.raise_bright (s : State) (k : Nat) (e : Error) : (s.raise k e).bright = s.bright := rfl
@[simp] theorem State.raise_enc (s : State) (k : Nat) (e : Error) : (s.raise k e).enc = s.enc := rfl
@[simp] theorem State.raise_hs (s : State) (k : Nat) (e : Error) : (s.raise k e).hs = (if k = 0 then .resp e.response else .busy (.finishing k e.response)) := rfl
@[simp] theorem State.raise_inputs (s : State) (k : Nat) (e : Error) : (s.raise k e).inputs = s.inputs := rfl
@[simp] theorem State.raise_cycle (s : State) (k : Nat) (e : Error) : (s.raise k e).cycle = s.cycle := rfl

@[simp] theorem State.holdFor_cfg (s : State) (k : Nat) : (s.holdFor k).cfg = s.cfg := rfl
@[simp] theorem State.holdFor_pix (s : State) (k : Nat) : (s.holdFor k).pix = s.pix := rfl
@[simp] theorem State.holdFor_bright (s : State) (k : Nat) : (s.holdFor k).bright = s.bright := rfl
@[simp] theorem State.holdFor_enc (s : State) (k : Nat) : (s.holdFor k).enc = s.enc := rfl
@[simp] theorem State.holdFor_hs (s : State) (k : Nat) : (s.holdFor k).hs = (if k = 0 then .ready else .busy (.hold k)) := rfl
@[simp] theorem State.holdFor_inputs (s : State) (k : Nat) : (s.holdFor k).inputs = s.inputs := rfl
@[simp] theorem State.holdFor_cycle (s : State) (k : Nat) : (s.holdFor k).cycle = s.cycle := rfl

@[simp] theorem State.resetEdge_cfg (s : State) : s.resetEdge.cfg = s.cfg := rfl
@[simp] theorem State.resetEdge_pix (s : State) : s.resetEdge.pix = [] := rfl
@[simp] theorem State.resetEdge_bright (s : State) : s.resetEdge.bright = 0x0100 := rfl
@[simp] theorem State.resetEdge_enc (s : State) : s.resetEdge.enc = { s.enc with phase := .idle } := rfl
@[simp] theorem State.resetEdge_hs (s : State) : s.resetEdge.hs = .busy .inReset := rfl
@[simp] theorem State.resetEdge_inputs (s : State) : s.resetEdge.inputs = s.inputs := rfl
@[simp] theorem State.resetEdge_cycle (s : State) : s.resetEdge.cycle = s.cycle := rfl

@[simp] theorem State.setHs_setHs (s : State) (h h' : Handshake) : (s.setHs h).setHs h' = s.setHs h' := rfl
@[simp] theorem State.setEnc_setEnc (s : State) (e e' : Enc) : (s.setEnc e).setEnc e' = s.setEnc e' := rfl

@[simp] theorem State.setPix_pins (s : State) (m : Memory) : (s.setPix m).pins = s.pins := rfl
@[simp] theorem State.setBright_pins (s : State) (b : BitVec 16) : (s.setBright b).pins = s.pins := rfl
@[simp] theorem State.setEnc_pins (s : State) (e : Enc) : (s.setEnc e).pins = s.pins := rfl
@[simp] theorem State.setHs_pins (s : State) (h : Handshake) : (s.setHs h).pins = s.pins := rfl
@[simp] theorem State.setHs_self (s : State) : s.setHs s.hs = s := rfl

@[simp] theorem State.finishIn_zero (s : State) (w : ResponseWord) : s.finishIn 0 w = s.setHs (.resp w) := rfl

theorem State.finishIn_pos (s : State) {k : Nat} (w : ResponseWord) (h : 1 ≤ k) :
    s.finishIn k w = s.setHs (.busy (.finishing k w)) := by
  rw [finishIn, if_neg (Nat.ne_of_gt h)]

@[simp] theorem State.holdFor_zero (s : State) : s.holdFor 0 = s.setHs .ready := rfl

theorem State.holdFor_pos (s : State) {k : Nat} (h : 1 ≤ k) : s.holdFor k = s.setHs (.busy (.hold k)) := by
  rw [holdFor, if_neg (Nat.ne_of_gt h)]

@[simp] theorem endCycle_next (s : State) : endCycle (.next s) = .next s.advance := rfl
@[simp] theorem endCycle_fault (r : Fault) : endCycle (.fault r) = .fault r := rfl
@[simp] theorem endCycle_refused (r : Refusal) : endCycle (.refused r) = .refused r := rfl

/-- Everything the end of a clk cycle can do. -/
theorem endCycle_eq_next {o : Out} {t : State} (h : endCycle o = .next t) : ∃ s, o = .next s ∧ t = s.advance := by
  cases o with
  | next s => exact ⟨s, rfl, by simpa using h.symm⟩
  | fault r => simp at h
  | refused r => simp at h

end Sys2Proof.Machine
end

