-- ==== Sys2Proof/Laws/Operands.lean ====
section
/-! SUPPORT. The bound check and cells: everything a command that names a cell can do, and when a wire word exists. -/

namespace Sys2Proof.Machine

theorem State.inRange_iff (s : State) (idx : Index) : s.inRange idx = true ↔ idx.toNat < s.cfg.n := by
  exact decide_eq_true_iff

theorem withCell_of_lt {s : State} {idx : Index} (h : idx.toNat < s.cfg.n) (act : Nat → State) :
    withCell s idx act = .next (act idx.toNat) :=
  if_pos ((s.inRange_iff idx).2 h)

theorem withCell_of_le {s : State} {idx : Index} (h : s.cfg.n ≤ idx.toNat) (act : Nat → State) :
    withCell s idx act = .next (s.raise s.cfg.latency.outOfRange (.outOfRange idx)) :=
  if_neg fun h' => absurd ((s.inRange_iff idx).1 h') (Nat.not_lt.2 h)

/-- Everything a command that names a cell can do. -/
theorem withCell_eq_next {s t : State} {idx : Index} {act : Nat → State} (h : withCell s idx act = .next t) :
    (idx.toNat < s.cfg.n ∧ t = act idx.toNat) ∨
      (s.cfg.n ≤ idx.toNat ∧ t = s.raise s.cfg.latency.outOfRange (.outOfRange idx)) := by
  rcases Nat.lt_or_ge idx.toNat s.cfg.n with hlt | hge
  · rw [withCell_of_lt hlt] at h
    exact .inl ⟨hlt, by simpa using h.symm⟩
  · rw [withCell_of_le hge] at h
    exact .inr ⟨hge, by simpa using h.symm⟩

theorem State.cell?_of_lt {s : State} {i : Nat} (h : i < s.cfg.n) : s.cell? i = some (s.pix.read i) := if_pos h

theorem State.wireWord?_of_lt {s : State} {i : Nat} (h : i < s.cfg.n) :
    s.wireWord? i = some (wireWordOf s.cfg s.bright (s.pix.read i)) := by
  simp [State.wireWord?, State.cell?_of_lt h]

@[simp] theorem State.wireWords_length (s : State) : s.wireWords.length = s.cfg.n := by
  simp [State.wireWords]

theorem State.wireWords_getElem (s : State) (i : Nat) (h : i < s.wireWords.length) :
    s.wireWords[i] = wireWordOf s.cfg s.bright (s.pix.read i) := by
  simp [State.wireWords]

end Sys2Proof.Machine
end

