-- ==== Sys2Proof/Laws/Encoder.lean ====
section
/-! SUPPORT. The encoder edge by edge: one lemma for each case of the machine of R108, and what starting and ending a frame
give. -/

namespace Sys2Proof.Machine

variable {c : Config} {under : Option Nat} {word : Nat → Option WireWord} {e : Enc}

theorem Enc.clock_idle (h : e.phase = .idle) : e.clock c under word = .ok e := by
  simp [Enc.clock, h]

/-- Inside a phase of a bit cell the edge only counts. -/
theorem Enc.clock_data_count (h : e.phase = .data) (hc : e.cnt + 1 < phaseLen c e.sub) :
    e.clock c under word = .ok { e with cnt := e.cnt + 1 } := by
  simp [Enc.clock, h, hc]

theorem Enc.clock_data_a (h : e.phase = .data) (hs : e.sub = .a) (hc : ¬ e.cnt + 1 < c.t1) :
    e.clock c under word = .ok { e with sub := .b, cnt := 0 } := by
  simp [Enc.clock, h, hs, phaseLen, hc]

theorem Enc.clock_data_b (h : e.phase = .data) (hs : e.sub = .b) (hc : ¬ e.cnt + 1 < c.t2) :
    e.clock c under word = .ok { e with sub := .c, cnt := 0 } := by
  simp [Enc.clock, h, hs, phaseLen, hc]

theorem Enc.clock_data_c (h : e.phase = .data) (hs : e.sub = .c) (hc : ¬ e.cnt + 1 < c.t3) :
    e.clock c under word = e.endCell c under word := by
  simp [Enc.clock, h, hs, phaseLen, hc]

theorem Enc.clock_latch_count (h : e.phase = .latch) (hc : e.cnt + 1 < c.tLatch) :
    e.clock c under word = .ok { e with cnt := e.cnt + 1 } := by
  simp [Enc.clock, h, hc]

theorem Enc.clock_latch_end (h : e.phase = .latch) (hc : ¬ e.cnt + 1 < c.tLatch) :
    e.clock c under word = .ok { e with phase := if 0 < c.tSettle then .settle else .idle, cnt := 0 } := by
  simp [Enc.clock, h, hc]

theorem Enc.clock_settle_count (h : e.phase = .settle) (hc : e.cnt + 1 < c.tSettle) :
    e.clock c under word = .ok { e with cnt := e.cnt + 1 } := by
  simp [Enc.clock, h, hc]

theorem Enc.clock_settle_end (h : e.phase = .settle) (hc : ¬ e.cnt + 1 < c.tSettle) :
    e.clock c under word = .ok { e with phase := .idle } := by
  simp [Enc.clock, h, hc]

theorem Enc.endCell_bit (h : 0 < e.bidx) :
    e.endCell c under word = .ok { e with bidx := e.bidx - 1, sub := .a, cnt := 0, shr := e.shr <<< 1 } :=
  if_pos h

theorem Enc.endCell_last (h : e.bidx = 0) (hl : e.pidx + 1 = c.n ∨ under = some (e.pidx + 1)) :
    e.endCell c under word = .ok { e with phase := .latch, cnt := 0 } := by
  simp only [Enc.endCell, h, Nat.lt_irrefl, if_false]
  exact if_pos hl

theorem Enc.endCell_pixel (h : e.bidx = 0) (hl : ¬ (e.pidx + 1 = c.n ∨ under = some (e.pidx + 1))) {w : WireWord}
    (hw : word (e.pidx + 1) = some w) : e.endCell c under word = .ok (Enc.startPixel (e.pidx + 1) w) := by
  simp only [Enc.endCell, h, Nat.lt_irrefl, if_false, if_neg hl, hw]

theorem State.endRender_eq (s : State) (under : Option Nat) :
    s.endRender under = s.finishIn s.cfg.lEnd (renderAnswer s.cfg under) := by
  cases under <;> rfl

theorem State.startFrame_zero (s : State) :
    s.startFrame (some 0) = .next ((s.setEnc { s.enc with phase := .latch, cnt := 0 }).setHs (.busy (.sending (some 0)))) :=
  rfl

theorem State.startFrame_pixel {s : State} (hn : 0 < s.cfg.n) {under : Option Nat} (hu : under ≠ some 0) :
    s.startFrame under =
      .next ((s.setEnc (Enc.startPixel 0 (wireWordOf s.cfg s.bright (s.pix.read 0)))).setHs (.busy (.sending under))) := by
  simp only [State.startFrame, if_neg hu, State.wireWord?_of_lt hn]

@[simp] theorem State.leadInFor_zero (s : State) (under : Option Nat) : s.leadInFor 0 under = s.startFrame under := rfl

theorem State.leadInFor_pos (s : State) {k : Nat} (h : 1 ≤ k) (under : Option Nat) :
    s.leadInFor k under = .next (s.setHs (.busy (.leadIn k under))) := by
  rw [State.leadInFor, if_neg (Nat.ne_of_gt h)]

theorem State.sendEdge_of_ok {s : State} {under : Option Nat} {e : Enc}
    (h : s.enc.clock s.cfg under s.wireWord? = .ok e) :
    s.sendEdge under =
      if e.phase = .idle then .next ((s.setEnc e).finishIn s.cfg.lEnd (renderAnswer s.cfg under))
      else .next (s.setEnc e) := by
  simp only [State.sendEdge, h, State.endRender_eq, State.setEnc_cfg]

/-- Everything starting a frame can do. -/
theorem State.startFrame_eq_next {s t : State} {under : Option Nat} (h : s.startFrame under = .next t) :
    ∃ e, t = (s.setEnc e).setHs (.busy (.sending under)) ∧
      (under = some 0 ∧ e = { s.enc with phase := .latch, cnt := 0 } ∨
        under ≠ some 0 ∧ 0 < s.cfg.n ∧ e = Enc.startPixel 0 (wireWordOf s.cfg s.bright (s.pix.read 0))) := by
  by_cases hu : under = some 0
  · subst hu
    rw [State.startFrame_zero] at h
    exact ⟨_, by simpa using h.symm, .inl ⟨rfl, rfl⟩⟩
  · by_cases hn : 0 < s.cfg.n
    · rw [State.startFrame_pixel hn hu] at h
      exact ⟨_, by simpa using h.symm, .inr ⟨hu, hn, rfl⟩⟩
    · simp [State.startFrame, hu, State.wireWord?, State.cell?, hn] at h

/-- Everything a lead-in can do: go on, or start the frame. -/
theorem State.leadInFor_eq_next {s t : State} {k : Nat} {under : Option Nat} (h : s.leadInFor k under = .next t) :
    (1 ≤ k ∧ t = s.setHs (.busy (.leadIn k under))) ∨ (k = 0 ∧ s.startFrame under = .next t) := by
  rcases Nat.eq_zero_or_pos k with rfl | hk
  · exact .inr ⟨rfl, h⟩
  · rw [State.leadInFor_pos s hk] at h
    exact .inl ⟨hk, by simpa using h.symm⟩

/-- Everything an edge of a sending RENDER can do: the encoder moves on, or it is back in `IDLE` and the response
follows. -/
theorem State.sendEdge_eq_next {s t : State} {under : Option Nat} (h : s.sendEdge under = .next t) :
    ∃ e, s.enc.clock s.cfg under s.wireWord? = .ok e ∧
      (e.phase = .idle ∧ t = (s.setEnc e).finishIn s.cfg.lEnd (renderAnswer s.cfg under) ∨
        e.phase ≠ .idle ∧ t = s.setEnc e) := by
  cases hc : s.enc.clock s.cfg under s.wireWord? with
  | error i => simp [State.sendEdge, hc] at h
  | ok e =>
    rw [State.sendEdge_of_ok hc] at h
    refine ⟨e, rfl, ?_⟩
    split at h
    · exact .inl ⟨‹_›, by simpa using h.symm⟩
    · exact .inr ⟨‹_›, by simpa using h.symm⟩

end Sys2Proof.Machine
end

