-- ==== Sys2Proof/Laws/Invariant.lean ====
section
/-! SUPPORT. What the pieces of the invariant need: the oracle answers in its domain, every response word carries one of the
four codes, and an edge of a sending encoder in its bounds has a next value in its bounds. -/

namespace Sys2Proof.Machine

theorem underOk_oracle (s : State) : underOk s.cfg s.oracle := by
  unfold State.oracle
  split
  · trivial
  · split
    · rename_i h
      exact ⟨h.2, h.1⟩
    · trivial

theorem answerOk_response (status : Status) (data : BitVec 24) : answerOk (response status data) := by
  have h : statusOf (response status data) = status.code := by
    apply BitVec.eq_of_getLsbD_eq
    intro i hi
    have h : ¬ (24 + i < 24) := by omega
    simp only [statusOf, response, BitVec.getLsbD_extractLsb', BitVec.getLsbD_append, hi, h]
    simp
  unfold answerOk
  rw [h]
  cases status <;> decide

theorem answerOk_renderAnswer (c : Config) (under : Option Nat) : answerOk (renderAnswer c under) := by
  cases under <;> exact answerOk_response _ _

/-- No more pixels are sent than there are. -/
theorem pixelsSent_le {c : Config} {under : Option Nat} (h : underOk c under) : pixelsSent c under ≤ c.n := by
  cases under with
  | none => exact Nat.le_refl _
  | some k => exact Nat.le_of_lt h.1

/-- In `DATA`, after the last bit of a pixel, there is another pixel to send or the frame is over. -/
theorem pidx_succ_lt {c : Config} {under : Option Nat} {i : Nat} (h : i < pixelsSent c under)
    (hl : ¬ (i + 1 = c.n ∨ under = some (i + 1))) : i + 1 < pixelsSent c under := by
  cases under with
  | none => simp [pixelsSent] at h hl ⊢; omega
  | some k => simp [pixelsSent] at h hl ⊢; omega

/-- Everything an edge of a sending encoder can do: it is back in `IDLE`, or still in its bounds. -/
theorem Enc.clock_sendingOk {s : State} {under : Option Nat} (hv : s.cfg.valid) (hu : underOk s.cfg under)
    (h : s.enc.sendingOk s under) :
    ∃ e, s.enc.clock s.cfg under s.wireWord? = .ok e ∧ (e.phase = .idle ∨ e.sendingOk s under) := by
  obtain ⟨-, ⟨h1, h2, h3⟩, -, hl, -⟩ := s.cfg.valid_iff.1 hv
  rcases hp : s.enc.phase with _ | _ | _ | _
  · simp [Enc.sendingOk, hp] at h
  · simp only [Enc.sendingOk, hp] at h
    obtain ⟨hpx, hb, hc, hshr⟩ := h
    by_cases hcnt : s.enc.cnt + 1 < phaseLen s.cfg s.enc.sub
    · refine ⟨_, Enc.clock_data_count hp hcnt, .inr ?_⟩
      simp only [Enc.sendingOk, hp]
      exact ⟨hpx, hb, hcnt, hshr⟩
    · rcases hsub : s.enc.sub with _ | _ | _ <;> rw [hsub] at hcnt
      · refine ⟨_, Enc.clock_data_a hp hsub hcnt, .inr ?_⟩
        simp only [Enc.sendingOk, hp]
        exact ⟨hpx, hb, by simp [phaseLen]; omega, hshr⟩
      · refine ⟨_, Enc.clock_data_b hp hsub hcnt, .inr ?_⟩
        simp only [Enc.sendingOk, hp]
        exact ⟨hpx, hb, by simp [phaseLen]; omega, hshr⟩
      · rw [Enc.clock_data_c hp hsub hcnt]
        by_cases hb0 : 0 < s.enc.bidx
        · refine ⟨_, Enc.endCell_bit hb0, .inr ?_⟩
          simp only [Enc.sendingOk, hp]
          refine ⟨hpx, by omega, by simp [phaseLen]; omega, ?_⟩
          rw [hshr, ← BitVec.shiftLeft_add]
          congr 1
          omega
        · by_cases hlast : s.enc.pidx + 1 = s.cfg.n ∨ under = some (s.enc.pidx + 1)
          · refine ⟨_, Enc.endCell_last (by omega) hlast, .inr ?_⟩
            simp only [Enc.sendingOk]
            omega
          · have hlt := pidx_succ_lt hpx hlast
            refine ⟨_, Enc.endCell_pixel (by omega) hlast
              (State.wireWord?_of_lt (Nat.lt_of_lt_of_le hlt (pixelsSent_le hu))), .inr ?_⟩
            simp only [Enc.sendingOk, Enc.startPixel]
            exact ⟨hlt, by omega, by simp [phaseLen]; omega, by simp⟩
  · simp only [Enc.sendingOk, hp] at h
    by_cases hcnt : s.enc.cnt + 1 < s.cfg.tLatch
    · refine ⟨_, Enc.clock_latch_count hp hcnt, .inr ?_⟩
      simpa only [Enc.sendingOk, hp] using hcnt
    · refine ⟨_, Enc.clock_latch_end hp hcnt, ?_⟩
      by_cases ht : 0 < s.cfg.tSettle
      · exact .inr (by simp [Enc.sendingOk, ht])
      · exact .inl (by simp [ht])
  · simp only [Enc.sendingOk, hp] at h
    by_cases hcnt : s.enc.cnt + 1 < s.cfg.tSettle
    · refine ⟨_, Enc.clock_settle_count hp hcnt, .inr ?_⟩
      simpa only [Enc.sendingOk, hp] using hcnt
    · exact ⟨_, Enc.clock_settle_end hp hcnt, .inl rfl⟩

end Sys2Proof.Machine
end

