-- ==== Sys2Proof/Laws/Memory.lean ====
section
/-! SUPPORT. Pixel memory: a read after a write, a read after a fill, and that every operation keeps the canonical form and
the populated range. -/

namespace Sys2Proof.Machine

@[simp] theorem Memory.read_nil (i : Nat) : Memory.read [] i = 0 := rfl

theorem Memory.wf_tail {c : Nat × Colour} {m : Memory} (h : Memory.wf (c :: m)) : Memory.wf m :=
  ⟨h.1.tail, fun x hx => h.2 x (List.mem_cons_of_mem _ hx)⟩

/-- Below its first index a canonical memory lists nothing. -/
theorem Memory.read_of_lt {m : Memory} {i : Nat} (h : ∀ c ∈ m, i < c.1) : m.read i = 0 := by
  induction m with
  | nil => rfl
  | cons c m ih =>
    have hc := h c (by simp)
    rw [show c = (c.1, c.2) from rfl, Memory.read, if_neg (Nat.ne_of_lt hc)]
    exact ih fun x hx => h x (by simp [hx])

/-- Below the first index of a canonical memory nothing is listed. -/
theorem Memory.read_cons_of_lt {a i : Nat} {w : Colour} {m : Memory} (hp : ∀ c ∈ m, a < c.1) (hi : i < a) :
    Memory.read ((a, w) :: m) i = 0 := by
  refine Memory.read_of_lt fun c hc => ?_
  rcases List.mem_cons.1 hc with rfl | hc
  exacts [hi, Nat.lt_trans hi (hp c hc)]

/-- A canonical memory's other indices lie above its first. -/
theorem Memory.lt_of_wf_cons {c : Nat × Colour} {m : Memory} (h : Memory.wf (c :: m)) : ∀ d ∈ m, c.1 < d.1 :=
  (List.pairwise_cons.1 h.1).1

/-- A write lists no index but those listed before and its own. -/
theorem Memory.fst_of_mem_write {m : Memory} {i : Nat} {v : Colour} {c : Nat × Colour} (h : c ∈ m.write i v) :
    c ∈ m ∨ c = (i, v) ∧ v ≠ 0 := by
  induction m with
  | nil => unfold Memory.write at h; split at h <;> simp_all
  | cons d m ih =>
    unfold Memory.write at h
    split at h
    · split at h
      · exact .inl h
      · rcases List.mem_cons.1 h with rfl | h
        exacts [.inr ⟨rfl, ‹_›⟩, .inl h]
    · split at h
      · split at h
        · exact .inl (List.mem_cons_of_mem _ h)
        · rcases List.mem_cons.1 h with rfl | h
          exacts [.inr ⟨rfl, ‹_›⟩, .inl (List.mem_cons_of_mem _ h)]
      · rcases List.mem_cons.1 h with rfl | h
        · exact .inl (by simp)
        · exact (ih h).imp (List.mem_cons_of_mem _) id

/-- Reading back: the cell written holds the new colour and every other cell the old one. -/
theorem Memory.read_write {m : Memory} (hm : m.wf) (i j : Nat) (v : Colour) :
    (m.write i v).read j = if j = i then v else m.read j := by
  induction m with
  | nil =>
    unfold Memory.write
    split
    · next hv => simp [hv]
    · simp [Memory.read]
  | cons c m ih =>
    obtain ⟨a, w⟩ := c
    have hrest := Memory.lt_of_wf_cons hm
    have ih := ih (Memory.wf_tail hm)
    unfold Memory.write
    split
    · next hi =>
      have h0 := Memory.read_cons_of_lt (w := w) hrest hi
      split
      · next hv =>
        split
        · next hj => rw [hj, h0, hv]
        · rfl
      · rfl
    · split
      · next hi =>
        subst hi
        have h0 := Memory.read_of_lt hrest
        split
        · next hv =>
          by_cases hj : j = i
          · rw [if_pos hj, hj, h0, hv]
          · simp [Memory.read, hj]
        · by_cases hj : j = i <;> simp [Memory.read, hj]
      · next h1 h2 =>
        by_cases hj : j = a
        · subst hj; simp [Memory.read, Ne.symm h2]
        · simp [Memory.read, hj, ih]

theorem Memory.write_wf {m : Memory} (hm : m.wf) (i : Nat) (v : Colour) : (m.write i v).wf := by
  refine ⟨?_, fun c hc => ?_⟩
  · induction m with
    | nil => unfold Memory.write; split <;> simp
    | cons c m ih =>
      obtain ⟨a, w⟩ := c
      have hp := Memory.lt_of_wf_cons hm
      have ih := ih (Memory.wf_tail hm)
      unfold Memory.write
      split
      · next hi =>
        split
        · exact hm.1
        · refine List.pairwise_cons.2 ⟨fun c hc => ?_, hm.1⟩
          rcases List.mem_cons.1 hc with rfl | hc
          exacts [hi, Nat.lt_trans hi (hp c hc)]
      · split
        · next hi =>
          subst hi
          split
          exacts [(Memory.wf_tail hm).1, List.pairwise_cons.2 ⟨hp, (Memory.wf_tail hm).1⟩]
        · next h1 h2 =>
          refine List.pairwise_cons.2 ⟨fun c hc => ?_, ih⟩
          rcases Memory.fst_of_mem_write hc with hc | ⟨rfl, -⟩
          · exact hp c hc
          · show a < i
            omega
  · rcases Memory.fst_of_mem_write hc with hc | ⟨rfl, hv⟩
    exacts [hm.2 c hc, hv]

theorem Memory.write_within {m : Memory} {n i : Nat} (hm : m.within n) (hi : i < n) (v : Colour) :
    (m.write i v).within n := fun c hc => by
  rcases Memory.fst_of_mem_write hc with hc | ⟨rfl, -⟩
  exacts [hm c hc, hi]

@[simp] theorem Memory.fill_zero (m : Memory) (v : Colour) : m.fill 0 v = m := rfl

theorem Memory.fill_succ (m : Memory) (n : Nat) (v : Colour) : m.fill (n + 1) v = (m.fill n v).write n v := by
  simp [Memory.fill, List.range_succ]

theorem Memory.fill_wf {m : Memory} (hm : m.wf) (n : Nat) (v : Colour) : (m.fill n v).wf := by
  induction n with
  | zero => exact hm
  | succ n ih => rw [Memory.fill_succ]; exact Memory.write_wf ih n v

/-- After a fill every cell below `n` holds the colour, and no other cell has changed. -/
theorem Memory.read_fill {m : Memory} (hm : m.wf) (n j : Nat) (v : Colour) :
    (m.fill n v).read j = if j < n then v else m.read j := by
  induction n with
  | zero => simp
  | succ n ih =>
    rw [Memory.fill_succ, Memory.read_write (Memory.fill_wf hm n v), ih]
    by_cases hj : j = n
    · simp [hj]
    · have : j < n + 1 ↔ j < n := by omega
      simp [hj, this]

theorem Memory.fill_within {m : Memory} {n : Nat} (hm : m.within n) (v : Colour) : (m.fill n v).within n := by
  have key : ∀ k ≤ n, (m.fill k v).within n := by
    intro k
    induction k with
    | zero => exact fun _ => hm
    | succ k ih =>
      intro hk
      rw [Memory.fill_succ]
      exact Memory.write_within (ih (Nat.le_of_succ_le hk)) hk v
  exact key n (Nat.le_refl n)

/-- Two canonical memories that read alike everywhere are the same list. -/
theorem Memory.ext_read {m m' : Memory} (hm : m.wf) (hm' : m'.wf) (h : ∀ i, m.read i = m'.read i) : m = m' := by
  induction m generalizing m' with
  | nil =>
    cases m' with
    | nil => rfl
    | cons c m' => exact absurd (by simpa [Memory.read] using (h c.1).symm) (hm'.2 c (by simp))
  | cons c m ih =>
    obtain ⟨a, v⟩ := c
    have hp := Memory.lt_of_wf_cons hm
    have hv : v ≠ 0 := hm.2 (a, v) (by simp)
    cases m' with
    | nil => exact absurd (by simpa [Memory.read] using h a) hv
    | cons d m' =>
      obtain ⟨b, w⟩ := d
      have hq := Memory.lt_of_wf_cons hm'
      have hw : w ≠ 0 := hm'.2 (b, w) (by simp)
      have hab : a = b := by
        rcases Nat.lt_trichotomy a b with hlt | heq | hgt
        · have := h a
          rw [Memory.read_cons_of_lt hq hlt] at this
          exact absurd (by simpa [Memory.read] using this) hv
        · exact heq
        · have := h b
          rw [Memory.read_cons_of_lt hp hgt] at this
          exact absurd (by simpa [Memory.read] using this.symm) hw
      subst hab
      have hvw : v = w := by simpa [Memory.read] using h a
      subst hvw
      rw [ih (Memory.wf_tail hm) (Memory.wf_tail hm') fun i => ?_]
      by_cases hi : i = a
      · subst hi; rw [Memory.read_of_lt hp, Memory.read_of_lt hq]
      · simpa [Memory.read, hi] using h i

end Sys2Proof.Machine
end

