-- ==== Sys2Proof/Laws/PerInstr.lean ====
section
/-! SUPPORT. Statements about every command as syntax, one lemma for each constructor: the fields of a command pass the
checks of R65. -/

namespace Sys2Proof.Laws.FieldsWf

/-- The fields a command assembles to are well-formed: a known `op`, and the reserved fields zero (R65, R71). -/
def Statement (i : Instr) : Prop := i.fields.wellFormed = true

theorem set (idx : Index) (rgb : Colour) : Statement (.set idx rgb) := by
  simp [Statement, Fields.wellFormed, Fields.check, Instr.fields, opFormat, Format.usesAux, Format.usesIdx,
    Format.usesRgb]

theorem fill (rgb : Colour) : Statement (.fill rgb) := by
  simp [Statement, Fields.wellFormed, Fields.check, Instr.fields, opFormat, Format.usesAux, Format.usesIdx,
    Format.usesRgb]

theorem setbr (aux : Aux) : Statement (.setbr aux) := by
  simp [Statement, Fields.wellFormed, Fields.check, Instr.fields, opFormat, Format.usesAux, Format.usesIdx,
    Format.usesRgb]

theorem snap (idx : Index) : Statement (.snap idx) := by
  simp [Statement, Fields.wellFormed, Fields.check, Instr.fields, opFormat, Format.usesAux, Format.usesIdx,
    Format.usesRgb]

theorem setp (idx : Index) (rgb : Colour) (pct : Aux) : Statement (.setp idx rgb pct) := by
  simp [Statement, Fields.wellFormed, Fields.check, Instr.fields, opFormat, Format.usesAux, Format.usesIdx,
    Format.usesRgb]

theorem render : Statement .render := rfl

theorem wheel (pos : Aux) : Statement (.wheel pos) := by
  simp [Statement, Fields.wellFormed, Fields.check, Instr.fields, opFormat, Format.usesAux, Format.usesIdx,
    Format.usesRgb]

end Sys2Proof.Laws.FieldsWf
end

