-- ==== Sys2Proof/Laws/Step.lean ====
section
/-! SUPPORT. The step: what each kind of edge gives, everything a step and a command can do, and how runs and traces
compose. -/

namespace Sys2Proof.Machine

/-! One lemma for each kind of edge but the acceptance of a command. -/

theorem step_of_reset {s : State} (hv : s.cfg.valid) (hr : s.pins.rst = true) : step s = .next s.resetEdge.advance := by
  simp [step, State.edge, hv, hr]

theorem step_of_busy {s : State} {w : Work} (hv : s.cfg.valid) (hr : s.pins.rst = false) (hs : s.hs = .busy w) :
    step s = endCycle (s.busyEdge w) := by
  simp [step, State.edge, hv, hr, hs]

theorem step_of_resp {s : State} {w : ResponseWord} (hv : s.cfg.valid) (hr : s.pins.rst = false) (hs : s.hs = .resp w) :
    step s = .next (if s.pins.rspReady = true then s.setHs .ready else s).advance := by
  cases h : s.pins.rspReady <;> simp [step, State.edge, hv, hr, hs, h]

theorem step_of_ready {s : State} (hv : s.cfg.valid) (hr : s.pins.rst = false) (hs : s.hs = .ready) :
    step s =
      if s.pins.cmdValid = true then
        match s.acceptWord s.pins.cmdData with
        | .settled o => endCycle o
        | .accept i => endCycle (exec i s)
      else .next s.advance := by
  cases h : s.pins.cmdValid
  · simp [step, State.edge, hv, hr, hs, h]
  · cases hw : s.acceptWord s.pins.cmdData <;> simp [step, State.edge, hv, hr, hs, h, hw]

/-- Everything a step that answers a next state can do. -/
theorem step_eq_next {s t : State} (h : step s = .next t) :
    s.cfg.valid ∧
      ((s.pins.rst = true ∧ t = s.resetEdge.advance) ∨
        (s.pins.rst = false ∧
          ((s.hs = .ready ∧ s.pins.cmdValid = false ∧ t = s.advance) ∨
            (s.hs = .ready ∧ s.pins.cmdValid = true ∧
              ((∃ e, decode s.pins.cmdData = .error e ∧
                  t = (s.raise s.cfg.latency.illegal .illegalCommand).advance) ∨
                ∃ i t', decode s.pins.cmdData = .ok i ∧ exec i s = .next t' ∧ t = t'.advance)) ∨
            (∃ w t', s.hs = .busy w ∧ s.busyEdge w = .next t' ∧ t = t'.advance) ∨
            (∃ w, s.hs = .resp w ∧ s.pins.rspReady = true ∧ t = (s.setHs .ready).advance) ∨
            ∃ w, s.hs = .resp w ∧ s.pins.rspReady = false ∧ t = s.advance))) := by
  by_cases hv : s.cfg.valid
  · refine ⟨hv, ?_⟩
    cases hr : s.pins.rst
    · right
      refine ⟨rfl, ?_⟩
      cases hs : s.hs with
      | ready =>
        rw [step_of_ready hv hr hs] at h
        cases hc : s.pins.cmdValid
        · simp only [hc] at h
          exact .inl ⟨rfl, rfl, by simpa using h.symm⟩
        · simp only [hc, if_true, State.acceptWord] at h
          refine .inr (.inl ⟨rfl, rfl, ?_⟩)
          cases hd : decode s.pins.cmdData with
          | error e => rw [hd] at h; exact .inl ⟨e, rfl, by simpa using h.symm⟩
          | ok i =>
            rw [hd] at h
            obtain ⟨t', ht', rfl⟩ := endCycle_eq_next h
            exact .inr ⟨i, t', rfl, ht', rfl⟩
      | busy w =>
        rw [step_of_busy hv hr hs] at h
        obtain ⟨t', ht', rfl⟩ := endCycle_eq_next h
        exact .inr (.inr (.inl ⟨w, t', rfl, ht', rfl⟩))
      | resp w =>
        rw [step_of_resp hv hr hs] at h
        refine .inr (.inr (.inr ?_))
        cases hp : s.pins.rspReady
        · exact .inr ⟨w, rfl, rfl, by simpa [hp] using h.symm⟩
        · exact .inl ⟨w, rfl, rfl, by simpa [hp] using h.symm⟩
    · rw [step_of_reset hv hr] at h
      exact .inl ⟨rfl, by simpa using h.symm⟩
  · simp [step, State.edge, hv] at h

/-! Each command's meaning by name. -/

theorem exec_set (idx : Index) (rgb : Colour) (s : State) :
    exec (.set idx rgb) s = withCell s idx fun i => (s.setCell i rgb).respond s.cfg.latency.set .ok 0 := rfl

theorem exec_fill (rgb : Colour) (s : State) :
    exec (.fill rgb) s = .next ((s.setPix (s.pix.fill s.cfg.n rgb)).respond s.cfg.latency.fill .ok 0) := rfl

theorem exec_setbr (aux : Aux) (s : State) :
    exec (.setbr aux) s = .next ((s.setBright aux).respond s.cfg.latency.setbr .ok 0) := rfl

theorem exec_snap (idx : Index) (s : State) :
    exec (.snap idx) s = withCell s idx fun i =>
      s.respond s.cfg.latency.snap .ok (scaleBrColour (s.pix.read i) s.bright) := rfl

theorem exec_setp (idx : Index) (rgb : Colour) (pct : Aux) (s : State) :
    exec (.setp idx rgb pct) s = withCell s idx fun i =>
      (s.setCell i (scalePctColour rgb (sint16 pct))).respond s.cfg.latency.setp .ok 0 := rfl

theorem exec_render (s : State) : exec .render s = s.leadInFor s.cfg.lStart s.oracle := rfl

theorem exec_wheel (pos : Aux) (s : State) :
    exec (.wheel pos) s = .next (s.respond s.cfg.latency.wheel .ok (wheel (sint16 pos))) := rfl

/-! What no command and no busy edge touches. -/

theorem State.startFrame_keeps {s t : State} {under : Option Nat} (h : s.startFrame under = .next t) :
    t.cfg = s.cfg ∧ t.inputs = s.inputs ∧ t.cycle = s.cycle ∧ t.pix = s.pix ∧ t.bright = s.bright := by
  obtain ⟨e, rfl, -⟩ := State.startFrame_eq_next h
  exact ⟨rfl, rfl, rfl, rfl, rfl⟩

theorem State.leadInFor_keeps {s t : State} {k : Nat} {under : Option Nat} (h : s.leadInFor k under = .next t) :
    t.cfg = s.cfg ∧ t.inputs = s.inputs ∧ t.cycle = s.cycle ∧ t.pix = s.pix ∧ t.bright = s.bright := by
  rcases State.leadInFor_eq_next h with ⟨-, rfl⟩ | ⟨-, h⟩
  · exact ⟨rfl, rfl, rfl, rfl, rfl⟩
  · exact State.startFrame_keeps h

/-- A busy edge changes neither the configuration, nor the inputs, nor `PIX`, nor `BRIGHT`. -/
theorem State.busyEdge_keeps {s t : State} {w : Work} (h : s.busyEdge w = .next t) :
    t.cfg = s.cfg ∧ t.inputs = s.inputs ∧ t.cycle = s.cycle ∧ t.pix = s.pix ∧ t.bright = s.bright := by
  cases w with
  | inReset => obtain rfl : s.holdFor _ = t := by simpa [State.busyEdge] using h
               exact ⟨rfl, rfl, rfl, rfl, rfl⟩
  | hold left => obtain rfl : s.holdFor _ = t := by simpa [State.busyEdge] using h
                 exact ⟨rfl, rfl, rfl, rfl, rfl⟩
  | leadIn left under => exact State.leadInFor_keeps h
  | sending under =>
    obtain ⟨e, -, ⟨-, rfl⟩ | ⟨-, rfl⟩⟩ := State.sendEdge_eq_next h
    · exact ⟨rfl, rfl, rfl, rfl, rfl⟩
    · exact ⟨rfl, rfl, rfl, rfl, rfl⟩
  | finishing left answer => obtain rfl : s.finishIn _ _ = t := by simpa [State.busyEdge] using h
                             exact ⟨rfl, rfl, rfl, rfl, rfl⟩

/-- No command changes the configuration or the inputs. -/
theorem exec_keeps {i : Instr} {s t : State} (h : exec i s = .next t) :
    t.cfg = s.cfg ∧ t.inputs = s.inputs ∧ t.cycle = s.cycle := by
  cases i with
  | set idx rgb =>
    simp only [exec, execSet] at h
    rcases withCell_eq_next h with ⟨-, rfl⟩ | ⟨-, rfl⟩ <;> exact ⟨rfl, rfl, rfl⟩
  | fill rgb => simp only [exec, execFill, Host.Outcome.next.injEq] at h; subst h; exact ⟨rfl, rfl, rfl⟩
  | setbr aux => simp only [exec, execSetbr, Host.Outcome.next.injEq] at h; subst h; exact ⟨rfl, rfl, rfl⟩
  | snap idx =>
    simp only [exec, execSnap] at h
    rcases withCell_eq_next h with ⟨-, rfl⟩ | ⟨-, rfl⟩ <;> exact ⟨rfl, rfl, rfl⟩
  | setp idx rgb pct =>
    simp only [exec, execSetp] at h
    rcases withCell_eq_next h with ⟨-, rfl⟩ | ⟨-, rfl⟩ <;> exact ⟨rfl, rfl, rfl⟩
  | render => obtain ⟨h1, h2, h3, -⟩ := State.leadInFor_keeps h; exact ⟨h1, h2, h3⟩
  | wheel pos => simp only [exec, execWheel, Host.Outcome.next.injEq] at h; subst h; exact ⟨rfl, rfl, rfl⟩

/-- Every step takes this clk cycle's pins off the list and counts the cycle. -/
theorem step_inputs {s t : State} (h : step s = .next t) : t.inputs = s.inputs.tail ∧ t.cycle = s.cycle + 1 := by
  obtain ⟨-, h⟩ := step_eq_next h
  rcases h with ⟨-, rfl⟩ | ⟨-, h⟩
  · exact ⟨rfl, rfl⟩
  · rcases h with ⟨-, -, rfl⟩ | ⟨-, -, h⟩ | ⟨w, t', -, hb, rfl⟩ | ⟨w, -, -, rfl⟩ | ⟨w, -, -, rfl⟩
    · exact ⟨rfl, rfl⟩
    · rcases h with ⟨e, -, rfl⟩ | ⟨i, t', -, he, rfl⟩
      · exact ⟨rfl, rfl⟩
      · obtain ⟨-, h1, h2⟩ := exec_keeps he
        simp [h1, h2]
    · obtain ⟨-, h1, h2, -⟩ := State.busyEdge_keeps hb
      simp [h1, h2]
    · exact ⟨rfl, rfl⟩
    · exact ⟨rfl, rfl⟩

/-! Runs and traces. -/

@[simp] theorem runFor_zero (s : State) : runFor 0 s = some s := rfl

@[simp] theorem trace_zero (out : State → Bool) (s : State) : trace out 0 s = [] := rfl

theorem runFor_succ {s t : State} (h : step s = .next t) (k : Nat) : runFor (k + 1) s = runFor k t := by
  simp [runFor, h]

theorem trace_succ {s t : State} (h : step s = .next t) (out : State → Bool) (k : Nat) :
    trace out (k + 1) s = out s :: trace out k t := by
  simp [trace, h]

/-- A run goes on from where a shorter run ends. -/
theorem runFor_add {j : Nat} {s t : State} (h : runFor j s = some t) (k : Nat) : runFor (j + k) s = runFor k t := by
  induction j generalizing s with
  | zero => simp_all
  | succ j ih =>
    rw [Nat.add_right_comm]
    cases hs : step s with
    | next u => rw [runFor_succ hs] at h ⊢; exact ih h
    | fault r => simp [runFor, hs] at h
    | refused r => simp [runFor, hs] at h

/-- The trace of a run is the trace of its first part, then that of the rest. -/
theorem trace_add {j : Nat} {s t : State} (h : runFor j s = some t) (out : State → Bool) (k : Nat) :
    trace out (j + k) s = trace out j s ++ trace out k t := by
  induction j generalizing s with
  | zero => simp_all
  | succ j ih =>
    rw [Nat.add_right_comm]
    cases hs : step s with
    | next u =>
      rw [runFor_succ hs] at h
      rw [trace_succ hs, trace_succ hs, ih h, List.cons_append]
    | fault r => simp [runFor, hs] at h
    | refused r => simp [runFor, hs] at h

/-- A run of `k` edges uses up the pins of `k` clk cycles. -/
theorem runFor_inputs {k : Nat} {s t : State} (h : runFor k s = some t) : t.inputs = s.inputs.drop k := by
  induction k generalizing s with
  | zero => simp_all
  | succ k ih =>
    cases hs : step s with
    | next u =>
      rw [runFor_succ hs] at h
      rw [ih h, (step_inputs hs).1, List.drop_tail]
    | fault r => simp [runFor, hs] at h
    | refused r => simp [runFor, hs] at h

/-- A state with no reset at its next edge has `rst` low now. -/
theorem State.noReset_now {s : State} {k : Nat} (h : s.noReset (k + 1)) : s.pins.rst = false := by
  cases hi : s.inputs with
  | nil => simp [State.pins, hi, Pins.quiet]
  | cons p ps => simpa [State.pins, hi] using h p (by simp [hi])

/-- What holds of the pins of `j + k` cycles holds of the first `j`. -/
theorem State.noReset_left {s : State} {j k : Nat} (h : s.noReset (j + k)) : s.noReset j :=
  fun p hp => h p (List.take_subset_take_left _ (Nat.le_add_right j k) hp)

/-- No reset in `j + k` cycles leaves none in the `k` after a run of `j`. -/
theorem State.noReset_runFor {s t : State} {j k : Nat} (h : s.noReset (j + k)) (hr : runFor j s = some t) :
    t.noReset k := by
  intro p hp
  rw [runFor_inputs hr, List.take_drop] at hp
  exact h p (List.mem_of_mem_drop hp)

end Sys2Proof.Machine
end

