-- ==== Sys2Proof/Tests/Slice0.lean ====
section
/-! SUPPORT. Tests: expected results from spec/95_test_vectors.md (the vector is named in each comment), and for every
statement with hypotheses a witness that meets them. -/

namespace Sys2Proof.Tests

open Sys2Proof Sys2Proof.Machine

/-! WellFormed: one ill-formed term for each check (30_encoding R65). -/

theorem test_wellformed_accepts_setp : (Fields.mk 0x05 77 3 0xFF6414).wellFormed = true := by decide

theorem test_wellformed_refuses_unknown_op :
    (Fields.mk 0x08 0 0 0).check = .error .unknownOp ∧ (Fields.mk 0x08 0 0 0).wellFormed = false := by decide

theorem test_wellformed_refuses_aux :
    (Fields.mk 0x01 1 0 0).check = .error .reservedAux ∧ (Fields.mk 0x01 1 0 0).wellFormed = false := by decide

theorem test_wellformed_refuses_idx :
    (Fields.mk 0x02 0 1 0).check = .error .reservedIdx ∧ (Fields.mk 0x02 0 1 0).wellFormed = false := by decide

theorem test_wellformed_refuses_rgb :
    (Fields.mk 0x03 0 0 1).check = .error .reservedRgb ∧ (Fields.mk 0x03 0 0 1).wellFormed = false := by decide

/-! Decoding: words written out from the encoding (V-ENC). -/

theorem test_decode_set : decode 0x010000FFFFFFFFFF = .ok (.set 65535 0xFFFFFF) := by decide

theorem test_decode_fill : decode 0x0200000000102030 = .ok (.fill 0x102030) := by decide

theorem test_decode_setbr : decode 0x03FF800000000000 = .ok (.setbr 0xFF80) := by decide

theorem test_decode_snap : decode 0x0400000003000000 = .ok (.snap 3) := by decide

/-- `op` 05, `aux` 004D, `idx` 0003, `rgb` FF6414, bit by bit. -/
theorem test_decode_setp :
    decode 0b0000010100000000010011010000000000000011111111110110010000010100 = .ok (.setp 3 0xFF6414 77) := by decide

theorem test_decode_render : decode 0x0600000000000000 = .ok .render := by decide

theorem test_decode_wheel : decode 0x0700640000000000 = .ok (.wheel 100) := by decide

/-- V-ILL. -/
theorem test_decode_illegal :
    decode 0x0800000000000000 = .error .unknownOp ∧ decode 0x0600010000000000 = .error .reservedAux ∧
      decode 0x0700640001000000 = .error .reservedIdx ∧ decode 0x0400000001000001 = .error .reservedRgb := by decide

theorem test_decodeTableWord : decodeTableWord 64 0x05004D0003FF6414 = some (.setp 3 0xFF6414 77) := by decide

/-- V-ENC, from the assembler's side. -/
theorem test_assemble :
    ((AsmLine.setbr (.fraction (-5) 1)).assemble.map encode) = some 0x03FF800000000000 ∧
      ((AsmLine.setp 1 (.dec 255 255 255) (-1)).assemble.map encode) = some 0x05FFFF0001FFFFFF ∧
      (AsmLine.setbr (.fraction 1 3)).assemble = none := by decide

/-! One step each. `after w s` presents the word `w` in the READY state `s`. -/

/-- A READY state under `c` with the given pixels, brightness and pins. -/
def ready (c : Config) (pix : Memory) (bright : BitVec 16) (inputs : List Pins) : State :=
  { State.resetWith c with pix := pix, bright := bright, hs := .ready, inputs := inputs }

/-- `PIX`, `BRIGHT` and `HS` after the edge that accepts `w`. -/
def after (w : Nat) (s : State) : Option (Memory × BitVec 16 × Handshake) :=
  match step (s.withFetchWord 64 w) with
  | .next t => some (t.pix, t.bright, t.hs)
  | .fault _ => none
  | .refused _ => none

/-- The four cells of P4 under `TC0` with `BRIGHT` a quarter. -/
def flicker (inputs : List Pins) : State :=
  ready .tc0 [(0, 0xC44D0F), (1, 0x662808), (2, 0xFF6414), (3, 0x4C1E06)] 0x0040 inputs

/-- V-PB rows 2 and 3. -/
theorem test_set_writes :
    after 0x0100000001C86432 (ready .tc0 [(0, 0x102030), (1, 0x102030), (2, 0x102030), (3, 0x102030)] 0x0100 []) =
      some ([(0, 0x102030), (1, 0xC86432), (2, 0x102030), (3, 0x102030)], 0x0100, .busy (.finishing 1 0x00000000)) := by
  decide

/-- V-OOR. -/
theorem test_set_out_of_range :
    after 0x0100000004FFFFFF (flicker []) =
      some ((flicker []).pix, 0x0040, .busy (.finishing 1 0x01000004)) := by decide

/-- V-PB row 2. -/
theorem test_fill_writes_all :
    after 0x0200000000102030 (ready .tc0 [] 0x0100 []) =
      some ([(0, 0x102030), (1, 0x102030), (2, 0x102030), (3, 0x102030)], 0x0100, .busy (.finishing 1 0)) := by decide

/-- V-RST: the cells of a black FILL are the reset cells. -/
theorem test_fill_black : after 0x0200000000000000 (flicker []) = some ([], 0x0040, .busy (.finishing 1 0)) := by decide

/-- V-ENC `SETBR -0.5`. -/
theorem test_setbr_copies :
    after 0x03FF800000000000 (ready .tc0 [] 0x0100 []) = some ([], 0xFF80, .busy (.finishing 1 0)) := by decide

/-- V-PB row 9: the factor 2.0 clamps. -/
theorem test_snap_clamps :
    after 0x0400000001000000 (ready .tc0 [(1, 0xC86432)] 0x0200 []) =
      some ([(1, 0xC86432)], 0x0200, .busy (.finishing 1 0x00FFC864)) := by decide

/-- V-OOR `SNAP 65535`. -/
theorem test_snap_out_of_range :
    after 0x040000FFFF000000 (ready .tc0 [] 0x0100 []) = some ([], 0x0100, .busy (.finishing 1 0x0100FFFF)) := by decide

/-- V-PCT, the command. -/
theorem test_setp_scales :
    after 0x05004D0003FF6414 (ready .tc0 [] 0x0080 []) = some ([(3, 0xC44D0F)], 0x0080, .busy (.finishing 1 0)) := by
  decide

/-- V-PCT: a negative percentage stores black. -/
theorem test_setp_negative :
    after 0x05FFFF0001FFFFFF (ready .tc0 [(1, 0x102030)] 0x0100 []) = some ([], 0x0100, .busy (.finishing 1 0)) := by
  decide

/-- V-WH. -/
theorem test_wheel_100 :
    after 0x0700640000000000 (ready .tc0 [] 0x0100 []) = some ([], 0x0100, .busy (.finishing 1 0x0000D22D)) := by decide

/-- V-WH: `WHEEL -1` is black and still `OK`. -/
theorem test_wheel_negative :
    after 0x07FFFF0000000000 (ready .tc0 [] 0x0100 []) = some ([], 0x0100, .busy (.finishing 1 0x00000000)) := by decide

/-- V-RN7: the first wire word is `133103`, and the encoder starts with its bit 23 in phase A. -/
theorem test_render_starts :
    exec .render (flicker []) =
      .next { flicker [] with enc := ⟨.data, 0, 23, .a, 0, 0x133103⟩, hs := .busy (.sending none) } := by
  rfl

/-- V-RN7: the wire words of the whole frame. -/
theorem test_render_words : (flicker []).wireWords = [0x133103, 0x0A1902, 0x193F05, 0x071301] := by decide

/-- V-BR: truncation, identity, clamp at both ends. -/
theorem test_scaleBr :
    scaleBr 255 0x0080 = 127 ∧ scaleBr 17 0x0101 = 17 ∧ scaleBr 200 0x0180 = 255 ∧ scaleBr 255 0x7FFF = 255 ∧
      scaleBr 1 0xFFFF = 0 ∧ scaleBr 255 0x8000 = 0 ∧ scaleBr 77 0x00C0 = 57 := by decide

/-- V-PCT. -/
theorem test_scalePct :
    scalePct 255 50 = 127 ∧ scalePct 255 150 = 255 ∧ scalePct 255 (-1) = 0 ∧ scalePct 7 15 = 1 ∧
      scalePct 255 32767 = 255 ∧ scalePct 255 (-32768) = 0 := by decide

/-- V-RN3: a one cell is 7 high and 3 low, a zero cell 2 high and 8 low. -/
theorem test_cell :
    runLengths (cell { Config.tc0 with t1 := 2, t2 := 5, t3 := 3 } true) = [(true, 7), (false, 3)] ∧
      runLengths (cell { Config.tc0 with t1 := 2, t2 := 5, t3 := 3 } false) = [(true, 2), (false, 8)] := by decide

/-- V-RN3: the bit after a zero cell is the next lower one, shifted to the top. -/
theorem test_encoder_next_bit :
    Enc.clock Config.tc0 none (fun _ => none) ⟨.data, 0, 23, .c, 0, 0x008001⟩ =
      .ok ⟨.data, 0, 22, .a, 0, 0x010002⟩ := by rfl

/-- V-RN7 with the oracle's answer 2: after the last bit of pixel 1 comes the latch gap. -/
theorem test_encoder_underrun :
    Enc.clock Config.tc0 (some 2) (fun _ => some 0) ⟨.data, 1, 0, .c, 0, 0⟩ = .ok ⟨.latch, 1, 0, .c, 0, 0⟩ := by rfl

/-- V-RST under `TC0`: seven cycles of hold after the cycle of the reset edge, then READY. -/
theorem test_reset_hold :
    (runFor 7 State.reset).map State.cmdReady = some false ∧ (runFor 8 State.reset).map State.cmdReady = some true := by
  decide

/-- P3: the hue offsets of four pixels in phase 255. -/
theorem test_hueOffset : (List.range 4).map (fun i => hueOffset 4 i 255) = [255, 63, 127, 191] := by decide

/-! Witnesses: for each statement with hypotheses, states and operands that meet them. -/

/-- One clk cycle in which the host presents `w` and takes responses. -/
def presenting (w : CommandWord) (underrun : Option Nat) : Pins :=
  ⟨false, true, w, true, underrun⟩

/-- One clk cycle of reset. -/
def resetting : Pins :=
  ⟨true, true, 0x0200000000FFFFFF, true, none⟩

/-- P4's state as the host presents `w`. -/
def given (w : CommandWord) (underrun : Option Nat) : State :=
  flicker [presenting w underrun]

/-- P4's state inside a RENDER, with `ENC` as given. -/
def sending (underrun : Option Nat) (e : Enc) : State :=
  { flicker [] with enc := e, hs := .busy (.sending underrun) }

/-- P4's state with the handshake given. -/
def doing (h : Handshake) (inputs : List Pins) : State :=
  { flicker inputs with hs := h }

/-- P4's pixels under a configuration with a lead-in. -/
def led (underrun : Option Nat) : State :=
  ready { Config.tc0 with lStart := 3, lEnd := 2 } [(0, 0xC44D0F)] 0x0100 [presenting 0x0600000000000000 underrun]

theorem flicker_memory :
    (flicker []).cfg.valid ∧ (flicker []).pix.wf ∧ (flicker []).pix.within (flicker []).cfg.n := by decide

theorem doing_inv {h : Handshake} {inputs : List Pins} (hh : (doing h inputs).handshakeOk) : (doing h inputs).Inv :=
  ⟨flicker_memory.1, flicker_memory.2.1, flicker_memory.2.2, hh⟩

theorem flicker_inv (inputs : List Pins) : (flicker inputs).Inv := doing_inv (h := .ready) rfl

theorem given_inv (w : CommandWord) (u : Option Nat) : (given w u).Inv := flicker_inv _

theorem sending_inv {u : Option Nat} {e : Enc} (hu : underOk Config.tc0 u) (he : e.sendingOk (sending u e) u) :
    (sending u e).Inv :=
  ⟨flicker_memory.1, flicker_memory.2.1, flicker_memory.2.2, hu, he⟩

theorem witness_EncodeOfDecodeIsTheWord : decode 0x05FFFF0001FFFFFF = .ok (.setp 1 0xFFFFFF 0xFFFF) := by decide

theorem witness_DecoderFollowsTheOpcodeTable : ∃ r ∈ opcodeTable, r.matches 0x0700640000000000 = true := by decide

theorem witness_ReservedFieldsMustBeZero :
    (opFormat (fieldsOf 0x0600010000000000).op = some .z ∧ Format.usesAux .z = false ∧
      (fieldsOf 0x0600010000000000).aux ≠ 0) ∧
    (opFormat (fieldsOf 0x0200000001123456).op = some .c ∧ Format.usesIdx .c = false ∧
      (fieldsOf 0x0200000001123456).idx ≠ 0) ∧
    (opFormat (fieldsOf 0x0300800000000001).op = some .a ∧ Format.usesRgb .a = false ∧
      (fieldsOf 0x0300800000000001).rgb ≠ 0) := by decide

/-- The ends of the signed range, and the factors -128, -0.5 and 127.99609375 (U9's neighbours). -/
theorem witness_AssembledWordsFollowTheTable :
    (assembleSigned (-32768) = some 0x8000 ∧ assembleSigned 32767 = some 0x7FFF) ∧
    ((-5 : Int) * 256 = -128 * 10 ^ 1 ∧ (-128 : Int) * 256 = -32768 * 10 ^ 0 ∧
      (12799609375 : Int) * 256 = 32767 * 10 ^ 8) := by decide

/-- One pixel, and 65536. -/
theorem witness_PseudoInstructionsExpandAsTheSpecSays :
    (previousIndex 1 0).toNat = 0 ∧ (previousIndex 65536 0).toNat = 65535 ∧ (previousIndex 65536 65535).toNat = 65534 ∧
      (previousIndex 4 0).toNat = 3 := by decide

theorem witness_StepRunsTheAcceptedCommand :
    ((given 0x0700640000000000 none).accepting ∧
      decode (given 0x0700640000000000 none).pins.cmdData = .ok (.wheel 100)) ∧
    ((doing (.busy .inReset) []).cfg.valid ∧ decodeTableWord 64 0x0600000000000000 = some .render) := by decide

/-- A busy port, a READY port with no word, and a READY port in reset. -/
theorem witness_CommandPinsAreReadOnlyWhenAccepting :
    ((doing (.busy (.hold 2)) [presenting 1 none]).sameButCommand (doing (.busy (.hold 2)) [presenting 2 none]) ∧
      ¬ (doing (.busy (.hold 2)) [presenting 1 none]).accepting ∧
      ¬ (doing (.busy (.hold 2)) [presenting 2 none]).accepting) ∧
    ((flicker []).sameButCommand (flicker [⟨false, false, 7, false, none⟩]) ∧ ¬ (flicker []).accepting ∧
      ¬ (flicker [⟨false, false, 7, false, none⟩]).accepting) ∧
    ((flicker [resetting]).sameButCommand (flicker [⟨true, false, 7, true, none⟩]) ∧
      ¬ (flicker [resetting]).accepting ∧ ¬ (flicker [⟨true, false, 7, true, none⟩]).accepting) :=
  ⟨⟨⟨true, 2, rfl⟩, by decide, by decide⟩, ⟨⟨false, 7, rfl⟩, by decide, by decide⟩,
    ⟨⟨false, 7, rfl⟩, by decide, by decide⟩⟩

/-- A hypothesis `step s = .next t` is met where the step answers a state at all. -/
def answers (s : State) : Bool :=
  match step s with
  | .next _ => true
  | .fault _ => false
  | .refused _ => false

theorem answers_iff (s : State) (h : answers s = true) : ∃ t, step s = .next t := by
  unfold answers at h
  split at h
  · exact ⟨_, ‹_›⟩
  · simp at h
  · simp at h

/-- READY with and without a word, the last cycles of a hold and of a latency, a RENDER sending, a response taken and
one not taken. -/
theorem witness_HandshakeMovesInOrder :
    ((flicker []).Inv ∧ (flicker []).pins.rst = false ∧ answers (flicker []) = true) ∧
    ((given 0x0700640000000000 none).Inv ∧ answers (given 0x0700640000000000 none) = true) ∧
    ((doing (.busy (.hold 1)) []).Inv ∧ answers (doing (.busy (.hold 1)) []) = true) ∧
    ((doing (.busy (.finishing 1 0x01000004)) []).Inv ∧ answers (doing (.busy (.finishing 1 0x01000004)) []) = true) ∧
    ((sending (some 2) ⟨.data, 1, 0, .c, 0, 0⟩).Inv ∧ answers (sending (some 2) ⟨.data, 1, 0, .c, 0, 0⟩) = true) ∧
    ((doing (.resp 0x00FFC864) [presenting 0 none]).Inv ∧ answers (doing (.resp 0x00FFC864) [presenting 0 none]) = true) ∧
    ((doing (.resp 0x00FFC864) []).Inv ∧ answers (doing (.resp 0x00FFC864) []) = true) := by
  refine ⟨⟨flicker_inv _, rfl, by decide⟩, ⟨given_inv _ _, by decide⟩, ⟨doing_inv ?_, by decide⟩,
    ⟨doing_inv ?_, by decide⟩, ⟨sending_inv ⟨by decide, rfl⟩ ?_, by decide⟩, ⟨doing_inv ?_, by decide⟩,
    ⟨doing_inv ?_, by decide⟩⟩
  · exact ⟨rfl, by decide, by decide⟩
  · exact ⟨rfl, by decide, by decide⟩
  · exact ⟨by decide, by decide, by decide, by decide⟩
  · exact ⟨rfl, by decide⟩
  · exact ⟨rfl, by decide⟩

theorem witness_ResponseIsHeldUntilTaken :
    ((doing (.resp 0x03000000) []).cfg.valid ∧ (doing (.resp 0x03000000) []).pins.rst = false ∧
      (doing (.resp 0x03000000) []).pins.rspReady = false) ∧
    (doing (.resp 0x03000000) [presenting 0 none]).pins.rspReady = true := by decide

/-- Three cycles with a word presented and no response taken. -/
theorem witness_HostThatTakesNothingStallsLpe :
    (doing (.resp 0x00000004) (List.replicate 3 ⟨false, true, 0, false, none⟩)).Inv ∧
      (doing (.resp 0x00000004) (List.replicate 3 ⟨false, true, 0, false, none⟩)).noReset 3 ∧
      (doing (.resp 0x00000004) (List.replicate 3 ⟨false, true, 0, false, none⟩)).noTake 3 :=
  ⟨doing_inv ⟨rfl, by decide⟩, by decide, by decide⟩

theorem witness_IllegalWordIsAnsweredAndChangesNothing :
    (given 0x0600010000000000 none).accepting ∧
      decode (given 0x0600010000000000 none).pins.cmdData = .error .reservedAux := by decide

/-- The first index out of range, and the largest. -/
theorem witness_OutOfRangeIsAnsweredAndChangesNothing :
    (((flicker []).cfg.valid ∧ indexOf (.snap 4) = some 4 ∧ (flicker []).cfg.n ≤ (4 : Index).toNat) ∧
      indexOf (.setp 65535 0 0) = some 65535 ∧ (flicker []).cfg.n ≤ (65535 : Index).toNat) ∧
    ((ready { Config.tc0 with n := 65536 } [] 0 []).cfg.n = 65536) ∧
    (indexOf (.wheel 0) = none ∧
      exec (.wheel 0) (flicker []) =
        .next { flicker [] with hs := .busy (.finishing 1 0x00FF0000) }) := by
  refine ⟨by decide, rfl, rfl, rfl⟩

/-- The last index in range and the first out of it, for SET, SNAP and SETP. -/
theorem witness_SetWritesOneRawColour :
    (flicker []).cfg.valid ∧ (flicker []).pix.wf ∧ (3 : Index).toNat < (flicker []).cfg.n ∧
      (flicker []).cfg.n ≤ (4 : Index).toNat := by
  exact ⟨by decide, (flicker_inv []).2.1, by decide, by decide⟩

/-- Four pixels, and one. -/
theorem witness_FillWritesEveryCell :
    (flicker []).cfg.valid ∧ (flicker []).pix.wf ∧ (ready { Config.tc0 with n := 1 } [] 0 []).cfg.valid := by
  exact ⟨by decide, (flicker_inv []).2.1, by decide⟩

theorem witness_SetbrCopiesThePatternToBright : (flicker []).cfg.valid := by decide

theorem witness_SnapAnswersTheScaledColour :
    (ready .tc0 [] 0x0100 []).cfg.valid ∧ (ready .tc0 [] 0x0100 []).bright = 0x0100 ∧
      (3 : Index).toNat < (ready .tc0 [] 0x0100 []).cfg.n ∧ (ready .tc0 [] 0x0100 []).cfg.n ≤ (4 : Index).toNat := by
  decide

/-- 100, 0 and -1 percent. -/
theorem witness_SetpWritesThePercentageScaledColour :
    ((flicker []).cfg.valid ∧ (flicker []).pix.wf ∧ (3 : Index).toNat < (flicker []).cfg.n ∧
      (flicker []).cfg.n ≤ (4 : Index).toNat) ∧
    sint16 100 = 100 ∧ sint16 0 ≤ 0 ∧ sint16 0xFFFF ≤ 0 :=
  ⟨witness_SetWritesOneRawColour, by decide⟩

/-- A lead-in; no lead-in with the answers 0, none and 3; a machine whose sender is never late. -/
theorem witness_RenderBeginsItsFrame :
    ((led none).cfg.valid ∧ 1 ≤ (led none).cfg.lStart) ∧
    ((given 0x0600000000000000 (some 0)).cfg.lStart = 0 ∧ (given 0x0600000000000000 (some 0)).oracle = some 0) ∧
    ((given 0x0600000000000000 none).oracle ≠ some 0 ∧ (given 0x0600000000000000 none).pins.underrun = none) ∧
    ((given 0x0600000000000000 (some 3)).pins.underrun = some 3 ∧ 3 < (given 0x0600000000000000 (some 3)).cfg.n ∧
      (given 0x0600000000000000 (some 3)).cfg.canUnderrun = true ∧
      (given 0x0600000000000000 (some 3)).oracle = some 3) ∧
    (ready { Config.tc0 with canUnderrun := false } [] 0 []).cfg.canUnderrun = false := by decide

theorem witness_WheelAnswersTheWheelColour :
    (flicker []).cfg.valid ∧ sint16 0xFFFF < 0 ∧ 255 < sint16 256 := by decide

theorem witness_FrameOfStoringCommands :
    (flicker []).pix.wf ∧
      (∃ t, exec (.set 3 0xFFFFFF) (flicker []) = .next t) ∧ (∃ t, exec (.setp 3 0xFF6414 77) (flicker []) = .next t) ∧
      ∃ t, exec (.fill 0x102030) (flicker []) = .next t :=
  ⟨(flicker_inv []).2.1, ⟨_, rfl⟩, ⟨_, rfl⟩, ⟨_, rfl⟩⟩

theorem witness_FrameOfOtherCommands :
    (∃ t, exec (.setbr 0x0080) (flicker []) = .next t) ∧ (∃ t, exec (.snap 3) (flicker []) = .next t) ∧
      (∃ t, exec (.wheel 7) (flicker []) = .next t) ∧ ∃ t, exec .render (flicker []) = .next t :=
  ⟨⟨_, rfl⟩, ⟨_, rfl⟩, ⟨_, rfl⟩, ⟨_, rfl⟩⟩

/-- Does the step change `PIX` (first) and `BRIGHT` (second)? -/
def changes (s : State) : Option (Bool × Bool) :=
  match step s with
  | .next t => some (t.pix ≠ s.pix, t.bright ≠ s.bright)
  | .fault _ => none
  | .refused _ => none

/-- SET, SETP, FILL and SETBR each change what they may. -/
theorem witness_PixelsAndBrightnessChangeOnlyByTheirCommands :
    changes (given 0x0100000003FFFFFF none) = some (true, false) ∧
      changes (given 0x05004D0003FF6414 none) = some (true, false) ∧
      changes (given 0x0200000000102030 none) = some (true, false) ∧
      changes (given 0x0301000000000000 none) = some (false, true) ∧ (given 0 none).pins.rst = false := by decide

theorem witness_WritesAreIdempotent :
    (flicker []).pix.wf ∧ ∃ t u, exec (.fill 0x102030) (flicker []) = .next t ∧ exec (.fill 0x102030) t = .next u :=
  ⟨(flicker_inv []).2.1, _, _, rfl, rfl⟩

theorem witness_SetThenSnapGivesTheColourBack :
    (ready .tc0 [] 0x0100 []).cfg.valid ∧ (ready .tc0 [] 0x0100 []).pix.wf ∧
      (3 : Index).toNat < (ready .tc0 [] 0x0100 []).cfg.n ∧ (ready .tc0 [] 0x0100 []).bright = 0x0100 :=
  ⟨by decide, by show Memory.wf _; decide, by decide, rfl⟩

theorem witness_SnapshotIsWhatSnapAnswers :
    (flicker []).cfg.valid ∧ (3 : Index).toNat < (flicker []).cfg.n := by decide

/-- The negative factors' smallest pattern, and a product that saturates. -/
theorem witness_ScaleBrFollowsItsFormula :
    (0x8000 ≤ (0x8000 : BitVec 16).toNat) ∧ (255 * 256 ≤ ((255 : Channel).toNat : Int) * sint16 0x0100) := by decide

theorem witness_ScaleBrObeysItsLaws :
    ((0x0100 : BitVec 16).toNat ≤ 0x0100) ∧ (0 ≤ sint16 0x7FFF ∧ (254 : Channel).toNat ≤ (255 : Channel).toNat) ∧
      sint16 0x8000 ≤ sint16 0x7FFF := by decide

theorem witness_ScalePctFollowsItsFormula :
    25500 ≤ ((255 : Channel).toNat : Int) * 100 ∧ (-32768 : Int) ≤ 0 := by decide

theorem witness_ScalePctObeysItsLaws :
    ((0 : Int) ≤ 100 ∧ (254 : Channel).toNat ≤ (255 : Channel).toNat) ∧ (-32768 : Int) ≤ 32767 := by decide

/-- V-WH: both ends of every band, and just outside. -/
theorem witness_WheelFollowsItsFormula :
    wheel (-1) = 0 ∧ wheel 0 = 0xFF0000 ∧ wheel 84 = 0x03FC00 ∧ wheel 85 = 0x00FF00 ∧ wheel 169 = 0x0003FC ∧
      wheel 170 = 0x0000FF ∧ wheel 255 = 0xFF0000 ∧ wheel 256 = 0 := by decide

/-- The steps across the two band edges, and the two positions of one colour. -/
theorem witness_WheelIsContinuousAndCloses :
    wheel 84 = 0x03FC00 ∧ wheel 85 = 0x00FF00 ∧ wheel 169 = 0x0003FC ∧ wheel 170 = 0x0000FF ∧ wheel 0 = wheel 255 := by
  decide

theorem witness_WheelTableIsTheFormula : wheelByTable (-1) = 0 ∧ wheelByTable 256 = 0 ∧ wheelByTable 255 = 0xFF0000 := by
  decide

theorem witness_WireWordsFollowWireOrder : (flicker []).wireWord? 3 = some 0x071301 ∧ 3 < (flicker []).cfg.n := by decide

/-- V-RN2: the first and the last bit of the second word. -/
theorem witness_FrameBitsAreTheWordsMsbFirst :
    (frameBits [0xC3A50F, 0x8001FE])[24 * 1 + 0]? = some true ∧ (frameBits [0xC3A50F, 0x8001FE])[24 * 1 + 23]? = some false := by
  decide

theorem witness_BitCellsHaveTheirShape :
    Config.tc0.valid ∧ { Config.tc0 with t1 := 2, t2 := 5, t3 := 3 : Config }.valid := by decide

/-- V-RN1: 24 edges, 32 high cycles. -/
theorem witness_DataWaveformCounts :
    Config.tc0.valid ∧ risingEdges false (waveData .tc0 [0x00FF00]) = 24 ∧ highCycles (waveData .tc0 [0x00FF00]) = 32 := by
  decide

theorem witness_RenderLengthIsExact : 3 < (flicker []).cfg.n ∧ frameLen .tc0 0 = 7 ∧ frameLen .tc0 3 = 223 := by decide

/-- RENDER with each kind of answer, a command with an index in and out of range, an illegal word: P4's rows. -/
theorem witness_CycleMachineRefinesTheCommands :
    (given 0x0600000000000000 none).Inv ∧ (given 0x0600000000000000 none).accepting ∧
      (given 0x0600000000000000 none).noReset 296 ∧
      ((given 0x0600000000000000 none).answer 0x0600000000000000).busy = 295 ∧
    (given 0x0600000000000000 (some 0)).accepting ∧
      ((given 0x0600000000000000 (some 0)).answer 0x0600000000000000).word = 0x02000000 ∧
    (given 0x0600000000000000 (some 2)).accepting ∧
      ((given 0x0600000000000000 (some 2)).answer 0x0600000000000000).word = 0x02000002 ∧
    (given 0x05001E0003FF6414 none).accepting ∧ (given 0x0500500004FF6414 none).accepting ∧
      ((given 0x0500500004FF6414 none).answer 0x0500500004FF6414).word = 0x01000004 ∧
    (given 0x0600010000000000 none).accepting ∧
      ((given 0x0600010000000000 none).answer 0x0600010000000000).word = 0x03000000 := by
  refine ⟨given_inv _ _, ?_⟩
  decide

/-- The same with a lead-in and a lead-out. -/
theorem witness_RenderPutsItsFrameOnTheWire :
    (led (some 3)).Inv ∧ (led (some 3)).accepting ∧ decode (led (some 3)).pins.cmdData = .ok .render ∧
      (led (some 3)).oracle = some 3 ∧ (led (some 3)).noReset (renderLen (led (some 3)).cfg (some 3) + 1) ∧
      (led none).accepting ∧ (led none).oracle = none := by
  refine ⟨⟨by decide, by show Memory.wf _; decide, by show Memory.within _ _; decide, rfl⟩, ?_⟩
  decide

theorem witness_OkMeansExactlyNPixels :
    (given 0x0600000000000000 none).Inv ∧ (given 0x0600000000000000 none).accepting ∧
      decode (given 0x0600000000000000 none).pins.cmdData = .ok .render ∧ (given 0x0600000000000000 none).noReset 296 ∧
      (given 0x0600000000000000 (some 0)).accepting :=
  ⟨given_inv _ _, by decide⟩

/-- With a settle time, and without. -/
theorem witness_LatchGapIsNeverCut :
    ((sending none ⟨.latch, 3, 0, .c, 0, 0⟩).Inv ∧ (sending none ⟨.latch, 3, 0, .c, 0, 0⟩).noReset 7) ∧
    ({ sending none ⟨.latch, 3, 0, .c, 0, 0⟩ with cfg := { Config.tc0 with tSettle := 0 } : State }).Inv :=
  ⟨⟨sending_inv trivial (by show 0 < 5; decide), by decide⟩,
    ⟨by decide, by show Memory.wf _; decide, by show Memory.within _ _; decide, trivial, by show 0 < 5; decide⟩⟩

/-- Phase A, and phase B of a one. -/
theorem witness_DoutIsHighOnlyInBitCells :
    ((sending none ⟨.data, 0, 23, .a, 0, 0x133103⟩).Inv ∧ (sending none ⟨.data, 0, 23, .a, 0, 0x133103⟩).dout = true) ∧
    (sending none ⟨.data, 0, 23, .b, 0, 0x800000⟩).dout = true :=
  ⟨⟨sending_inv trivial ⟨by decide, by decide, by decide, by decide⟩, rfl⟩, by decide⟩

theorem witness_TxActiveIsTheDataPhase : (sending none ⟨.data, 0, 23, .a, 0, 0x133103⟩).dout = true := by decide

/-- Reset in the middle of a RENDER. -/
theorem witness_ResetTakesEveryStateToItsResetValue :
    ({ sending none ⟨.data, 0, 23, .a, 0, 0x133103⟩ with inputs := [resetting] } : State).cfg.valid ∧
      ({ sending none ⟨.data, 0, 23, .a, 0, 0x133103⟩ with inputs := [resetting] } : State).pins.rst = true := by decide

theorem witness_ResetHoldKeepsThePortClosed :
    (flicker [resetting]).cfg.valid ∧ (flicker [resetting]).pins.rst = true ∧
      ∃ t, step (flicker [resetting]) = .next t ∧ t.noReset (t.cfg.tLatch + t.cfg.tSettle + 1) :=
  ⟨by decide, by decide, _, rfl, by decide⟩

theorem witness_ResetStateHoldsTheSpecValues : Config.tc0.valid := by decide

theorem witness_InvariantHoldsAtReset : { Config.tc0 with n := 65536 : Config }.valid := by decide

theorem witness_StepKeepsTheInvariant :
    ∃ t, (given 0x0100000003FFFFFF none).Inv ∧ step (given 0x0100000003FFFFFF none) = .next t :=
  ⟨_, given_inv _ _, rfl⟩

theorem witness_InvariantStatesNeverStop : (led none).Inv :=
  ⟨by decide, by show Memory.wf _; decide, by show Memory.within _ _; decide, rfl⟩

/-- One configuration for each constraint, wrong by as little as can be. -/
theorem witness_InvalidConfigurationIsRefused :
    { Config.tc0 with n := 0 : Config }.n = 0 ∧ 65536 < { Config.tc0 with n := 65537 : Config }.n ∧
      { Config.tc0 with t1 := 0 : Config }.t1 = 0 ∧ { Config.tc0 with t2 := 0 : Config }.t2 = 0 ∧
      { Config.tc0 with t3 := 0 : Config }.t3 = 0 ∧ Config.tc0.t1 + Config.tc0.t2 ≤ { Config.tc0 with t3 := 2 : Config }.t3 ∧
      Config.tc0.t2 + Config.tc0.t3 ≤ { Config.tc0 with t1 := 2 : Config }.t1 ∧
      { Config.tc0 with tLatch := 0 : Config }.tLatch = 0 := by decide

theorem witness_ConfigurationNeverChanges : ∃ t, step (flicker [resetting]) = .next t := ⟨_, rfl⟩

/-- A pair in READY, a pair in the latch gap, a pair in the settle time, and a state sending. -/
theorem witness_UnreadEncoderFieldsChangeNothing :
    (flicker []).sameButUnreadEnc { flicker [] with enc := ⟨.idle, 9, 5, .c, 8, 0xFFFFFF⟩ } ∧
    (sending none ⟨.latch, 3, 0, .c, 2, 0⟩).sameButUnreadEnc (sending none ⟨.latch, 0, 7, .a, 2, 0xABCDEF⟩) ∧
    (sending none ⟨.settle, 3, 0, .c, 1, 0⟩).sameButUnreadEnc (sending none ⟨.settle, 0, 7, .a, 1, 0xABCDEF⟩) ∧
    (sending none ⟨.data, 0, 23, .a, 0, 0x133103⟩).sameButUnreadEnc (sending none ⟨.data, 0, 23, .a, 0, 0x133103⟩) ∧
    ∃ t, step (sending none ⟨.settle, 3, 0, .c, 1, 0⟩) = .next t :=
  ⟨⟨rfl, rfl, by decide, by decide⟩, ⟨rfl, rfl, by decide, by decide⟩, ⟨rfl, rfl, by decide, by decide⟩,
    ⟨rfl, rfl, by decide, by decide⟩, ⟨_, rfl⟩⟩

end Sys2Proof.Tests
end

section
/-! The step of a state whose `Config` is no configuration of LPE (R6, R98, V7): the one kind of edge that
`step_of_reset`, `step_of_busy`, `step_of_resp` and `step_of_ready` leave out, since each of them asks for a valid one. -/

namespace Sys2Proof.Machine

theorem step_of_not_valid {s : State} (hv : ¬ s.cfg.valid) : step s = .refused .notAConfiguration := by
  simp [step, State.edge, hv]

/-- Settles O58: each disjunct contradicts one constraint that `Config.valid_iff` takes from a valid configuration, so
the state has no valid one and `step_of_not_valid` gives its step. -/
theorem invalidConfigurationIsRefused : Obligations.InvalidConfigurationIsRefused := by
  intro s hbroken
  refine step_of_not_valid fun hv => ?_
  obtain ⟨⟨hn, hn_le⟩, ⟨ht1, ht2, ht3⟩, ⟨hlong, hshort⟩, hlatch, -⟩ := s.cfg.valid_iff.1 hv
  rcases hbroken with h | h | h | h | h | h | h | h
  · exact Nat.ne_of_gt hn h
  · exact Nat.not_lt.2 hn_le h
  · exact Nat.ne_of_gt ht1 h
  · exact Nat.ne_of_gt ht2 h
  · exact Nat.ne_of_gt ht3 h
  · exact Nat.not_lt.2 h hlong
  · exact Nat.not_lt.2 h hshort
  · exact Nat.ne_of_gt hlatch h

end Sys2Proof.Machine
end

section
/-! What an accepted word does, said once through the command-level answer: any word but RENDER's is answered at the
accepting edge with `State.answer` of it, and RENDER begins its lead-in (30_encoding R73). -/

namespace Sys2Proof.Machine

/-- The state an answer leaves at the accepting edge: its `PIX` and `BRIGHT`, then its BUSY cycles and its response. -/
def State.finishWith (s : State) (a : Answer) : State :=
  ((s.setPix a.pix).setBright a.bright).finishIn a.busy a.word

@[simp] theorem State.finishWith_enc (s : State) (a : Answer) : (s.finishWith a).enc = s.enc := rfl

variable {s t : State} {i : Instr} {w : CommandWord}

theorem State.answer_of_error {e : Illegal} (hd : decode w = .error e) :
    s.answer w = silent s.pix s.bright Error.illegalCommand.response s.cfg.latency.illegal := by
  rw [State.answer, hd]

theorem State.answer_of_miss {idx : Index} (hd : decode w = .ok i) (hi : indexOf i = some idx)
    (hlt : ¬ idx.toNat < s.cfg.n) :
    s.answer w = silent s.pix s.bright (Error.outOfRange idx).response s.cfg.latency.outOfRange := by
  simp only [State.answer, hd, State.misses, hi, if_neg hlt]

theorem State.answer_of_hit {idx : Index} (hd : decode w = .ok i) (hi : indexOf i = some idx)
    (hlt : idx.toNat < s.cfg.n) : s.answer w = s.executed i := by
  simp only [State.answer, hd, State.misses, hi, if_pos hlt]

theorem State.answer_of_noIndex (hd : decode w = .ok i) (hi : indexOf i = none) : s.answer w = s.executed i := by
  simp only [State.answer, hd, State.misses, hi]

/-- A command that names a cell is answered in the order of R73: the bound check, then its own rule. -/
theorem withCell_eq_finishWith {idx : Index} {act : Nat → State} (hd : decode w = .ok i) (hi : indexOf i = some idx)
    (hact : act idx.toNat = s.finishWith (s.executed i)) : withCell s idx act = .next (s.finishWith (s.answer w)) := by
  rcases Nat.lt_or_ge idx.toNat s.cfg.n with hlt | hge
  · rw [withCell_of_lt hlt, State.answer_of_hit hd hi hlt, hact]
  · rw [withCell_of_le hge, State.answer_of_miss hd hi (Nat.not_lt.2 hge)]
    rfl

/-- Every command but RENDER does at the accepting edge all that its answer says. -/
theorem exec_of_ne_render (hd : decode w = .ok i) (hi : i ≠ .render) : exec i s = .next (s.finishWith (s.answer w)) := by
  cases i with
  | set idx rgb => exact (exec_set idx rgb s).trans (withCell_eq_finishWith hd rfl rfl)
  | snap idx => exact (exec_snap idx s).trans (withCell_eq_finishWith hd rfl rfl)
  | setp idx rgb pct => exact (exec_setp idx rgb pct s).trans (withCell_eq_finishWith hd rfl rfl)
  | fill rgb => rw [State.answer_of_noIndex hd rfl]; rfl
  | setbr aux => rw [State.answer_of_noIndex hd rfl]; rfl
  | wheel pos => rw [State.answer_of_noIndex hd rfl]; rfl
  | render => exact absurd rfl hi

theorem step_of_accepting_ok (ha : s.accepting) (hd : decode s.pins.cmdData = .ok i) :
    step s = endCycle (exec i s) := by
  obtain ⟨hv, hr, hs, hc⟩ := ha
  simp only [step_of_ready hv hr hs, hc, if_true, State.acceptWord, hd]

theorem step_of_render (ha : s.accepting) (hd : decode s.pins.cmdData = .ok .render) :
    step s = endCycle (s.leadInFor s.cfg.lStart s.oracle) :=
  step_of_accepting_ok ha hd

/-- The edge that accepts any other word, legal or not, leaves what the word's answer says. -/
theorem step_of_not_render (ha : s.accepting) (hd : decode s.pins.cmdData ≠ .ok .render) :
    step s = .next (s.finishWith (s.answer s.pins.cmdData)).advance := by
  cases hw : decode s.pins.cmdData with
  | ok i => rw [step_of_accepting_ok ha hw, exec_of_ne_render hw fun hi => hd (hi ▸ hw), endCycle_next]
  | error e =>
    obtain ⟨hv, hr, hs, hc⟩ := ha
    simp only [step_of_ready hv hr hs, hc, if_true, State.acceptWord, hw, State.answer_of_error hw]
    rfl

/-- Everything the edge that accepts a word can do. -/
theorem step_eq_next_of_accepting (ha : s.accepting) (h : step s = .next t) :
    (decode s.pins.cmdData ≠ .ok .render ∧ t = (s.finishWith (s.answer s.pins.cmdData)).advance) ∨
      (decode s.pins.cmdData = .ok .render ∧ ∃ u, s.leadInFor s.cfg.lStart s.oracle = .next u ∧ t = u.advance) := by
  by_cases hd : decode s.pins.cmdData = .ok .render
  · rw [step_of_render ha hd] at h
    exact .inr ⟨hd, endCycle_eq_next h⟩
  · rw [step_of_not_render ha hd] at h
    exact .inl ⟨hd, by simpa using h.symm⟩

/-! What every answer gives: a response with one of the four codes, at least one BUSY cycle, and `PIX` still in its
canonical form below N. -/

/-- What is asked of an answer to a word: a response with one of the four codes after at least one BUSY cycle, and a
pixel memory that is canonical and below N where the one before it was. -/
structure Answer.Fits (a : Answer) (s : State) : Prop where
  word : answerOk a.word
  busy : 1 ≤ a.busy
  wf : s.pix.wf → a.pix.wf
  within : s.pix.within s.cfg.n → a.pix.within s.cfg.n

/-- The answer of a command whose cell exists, or that names none. -/
theorem State.executed_fits (hv : s.cfg.valid) (hi : ∀ idx, indexOf i = some idx → idx.toNat < s.cfg.n) :
    (s.executed i).Fits s := by
  obtain ⟨hset, hfill, hsetbr, hsnap, hsetp, hwheel, -⟩ := Config.latency_valid hv
  cases i with
  | set idx rgb =>
    exact ⟨answerOk_response _ _, hset, fun h => Memory.write_wf h _ _, fun h => Memory.write_within h (hi idx rfl) _⟩
  | fill rgb => exact ⟨answerOk_response _ _, hfill, fun h => Memory.fill_wf h _ _, fun h => Memory.fill_within h _⟩
  | setbr aux => exact ⟨answerOk_response _ _, hsetbr, id, id⟩
  | snap idx => exact ⟨answerOk_response _ _, hsnap, id, id⟩
  | setp idx rgb pct =>
    exact ⟨answerOk_response _ _, hsetp, fun h => Memory.write_wf h _ _, fun h => Memory.write_within h (hi idx rfl) _⟩
  | render =>
    refine ⟨answerOk_renderAnswer _ _, ?_, id, id⟩
    have := Config.tLatch_pos hv
    simp only [State.executed, renderLen, frameLen]
    omega
  | wheel pos => exact ⟨answerOk_response _ _, hwheel, id, id⟩

theorem State.answer_fits (hv : s.cfg.valid) (w : CommandWord) : (s.answer w).Fits s := by
  obtain ⟨-, -, -, -, -, -, hout, hillegal⟩ := Config.latency_valid hv
  cases hd : decode w with
  | error e =>
    rw [State.answer_of_error hd]
    exact ⟨answerOk_response _ _, hillegal, id, id⟩
  | ok i =>
    cases hi : indexOf i with
    | none => exact State.answer_of_noIndex hd hi ▸ State.executed_fits hv (by simp [hi])
    | some idx =>
      by_cases hlt : idx.toNat < s.cfg.n
      · exact State.answer_of_hit hd hi hlt ▸ State.executed_fits hv (by simp [hi, hlt])
      · rw [State.answer_of_miss hd hi hlt]
        exact ⟨answerOk_response _ _, hout, id, id⟩

end Sys2Proof.Machine
end

section
/-! The invariant, edge by edge: an operation on a state whose encoder is idle gives a state of the invariant, a sending
encoder stays in its bounds, and so every step keeps it. -/

namespace Sys2Proof.Machine

/-- The invariant but for the handshake, with the encoder idle: what every state of the invariant meets in which no
RENDER sends. -/
structure State.EncoderIdle (s : State) : Prop where
  valid : s.cfg.valid
  wf : s.pix.wf
  within : s.pix.within s.cfg.n
  idle : s.enc.phase = .idle

variable {s t : State} {under : Option Nat}

/-- A RENDER the oracle does not cut at 0 sends a pixel. -/
theorem pixelsSent_pos {c : Config} (hn : 0 < c.n) (hu : under ≠ some 0) : 0 < pixelsSent c under := by
  cases under with
  | none => exact hn
  | some k => exact Nat.pos_of_ne_zero fun hk : k = 0 => hu (by rw [hk])

theorem State.handshakeOk_sending (hs : s.hs = .busy (.sending under)) :
    s.handshakeOk ↔ underOk s.cfg under ∧ s.enc.sendingOk s under := by
  simp only [State.handshakeOk, hs]

theorem State.Inv.sendingOk (hI : s.Inv) (hs : s.hs = .busy (.sending under)) :
    underOk s.cfg under ∧ s.enc.sendingOk s under :=
  (State.handshakeOk_sending hs).1 hI.2.2.2

theorem State.Inv.hold_le {left : Nat} (hI : s.Inv) (hs : s.hs = .busy (.hold left)) : left ≤ resetHold s.cfg := by
  obtain ⟨-, -, -, hh⟩ := hI
  simp only [State.handshakeOk, hs] at hh
  exact hh.2.2

theorem State.Inv.leadIn_le {left : Nat} (hI : s.Inv) (hs : s.hs = .busy (.leadIn left under)) :
    left ≤ s.cfg.lStart ∧ underOk s.cfg under := by
  obtain ⟨-, -, -, hh⟩ := hI
  simp only [State.handshakeOk, hs] at hh
  exact hh.2.2

theorem State.Inv.finishing_ok {left : Nat} {r : ResponseWord} (hI : s.Inv) (hs : s.hs = .busy (.finishing left r)) :
    answerOk r := by
  obtain ⟨-, -, -, hh⟩ := hI
  simp only [State.handshakeOk, hs] at hh
  exact hh.2.2

/-- In a state of the invariant only a sending RENDER has the encoder out of `IDLE`. -/
theorem State.Inv.encoderIdle (hI : s.Inv) (hs : ∀ under, s.hs ≠ .busy (.sending under)) : s.EncoderIdle := by
  obtain ⟨hv, hwf, hin, hh⟩ := hI
  refine ⟨hv, hwf, hin, ?_⟩
  cases h : s.hs with
  | ready => simpa only [State.handshakeOk, h] using hh
  | resp r =>
    simp only [State.handshakeOk, h] at hh
    exact hh.1
  | busy w =>
    cases w with
    | inReset => simpa only [State.handshakeOk, h] using hh
    | sending under => exact absurd h (hs under)
    | hold left =>
      simp only [State.handshakeOk, h] at hh
      exact hh.1
    | leadIn left u =>
      simp only [State.handshakeOk, h] at hh
      exact hh.1
    | finishing left r =>
      simp only [State.handshakeOk, h] at hh
      exact hh.1

/-! What an operation on an idle encoder gives. -/

namespace State.EncoderIdle

variable (h : s.EncoderIdle)
include h

theorem ready_inv : (s.setHs .ready).Inv := ⟨h.valid, h.wf, h.within, h.idle⟩

theorem finishIn_inv {r : ResponseWord} (hr : answerOk r) (k : Nat) : (s.finishIn k r).Inv := by
  refine ⟨h.valid, h.wf, h.within, ?_⟩
  rcases Nat.eq_zero_or_pos k with rfl | hk
  · exact ⟨h.idle, hr⟩
  · rw [State.finishIn_pos s r hk]
    exact ⟨h.idle, hk, hr⟩

theorem holdFor_inv {k : Nat} (hk : k ≤ resetHold s.cfg) : (s.holdFor k).Inv := by
  rcases Nat.eq_zero_or_pos k with rfl | hpos
  · exact h.ready_inv
  · rw [State.holdFor_pos s hpos]
    exact ⟨h.valid, h.wf, h.within, h.idle, hpos, hk⟩

theorem finishWith_inv {a : Answer} (ha : a.Fits s) : (s.finishWith a).Inv :=
  State.EncoderIdle.finishIn_inv (s := (s.setPix a.pix).setBright a.bright)
    ⟨h.valid, ha.wf h.wf, ha.within h.within, h.idle⟩ ha.word a.busy

/-- A frame begins with the encoder in its bounds: in the latch gap, or at bit 23 of pixel 0. -/
theorem startFrame_inv (hu : underOk s.cfg under) (ht : s.startFrame under = .next t) : t.Inv := by
  obtain ⟨e, rfl, ⟨-, rfl⟩ | ⟨hne, hn, rfl⟩⟩ := State.startFrame_eq_next ht
  · exact ⟨h.valid, h.wf, h.within, hu, Config.tLatch_pos h.valid⟩
  · obtain ⟨-, ⟨ht1, -, -⟩, -⟩ := s.cfg.valid_iff.1 h.valid
    exact ⟨h.valid, h.wf, h.within, hu, pixelsSent_pos hn hne, Nat.le_refl 23, ht1, (BitVec.shiftLeft_zero _).symm⟩

theorem leadInFor_inv {k : Nat} (hk : k ≤ s.cfg.lStart) (hu : underOk s.cfg under)
    (ht : s.leadInFor k under = .next t) : t.Inv := by
  rcases State.leadInFor_eq_next ht with ⟨hpos, rfl⟩ | ⟨-, ht⟩
  · exact ⟨h.valid, h.wf, h.within, h.idle, hpos, hk, hu⟩
  · exact h.startFrame_inv hu ht

end State.EncoderIdle

/-! What each kind of edge gives. -/

theorem State.Inv.advance (hI : s.Inv) : s.advance.Inv := hI

theorem State.resetEdge_inv (hv : s.cfg.valid) : s.resetEdge.Inv :=
  ⟨hv, by simp [Memory.wf], by simp [Memory.within], rfl⟩

theorem State.Inv.sendEdge (hI : s.Inv) (hs : s.hs = .busy (.sending under)) (ht : s.sendEdge under = .next t) :
    t.Inv := by
  obtain ⟨hu, hsend⟩ := hI.sendingOk hs
  obtain ⟨hv, hwf, hin, -⟩ := hI
  obtain ⟨e, hclock, hcases⟩ := State.sendEdge_eq_next ht
  obtain ⟨e', hclock', hok⟩ := Enc.clock_sendingOk hv hu hsend
  obtain rfl : e' = e := by simpa using hclock'.symm.trans hclock
  rcases hcases with ⟨hidle, rfl⟩ | ⟨hbusy, rfl⟩
  · exact State.EncoderIdle.finishIn_inv (s := s.setEnc e') ⟨hv, hwf, hin, hidle⟩ (answerOk_renderAnswer _ _) _
  · exact ⟨hv, hwf, hin, (State.handshakeOk_sending (s := s.setEnc e') hs).2 ⟨hu, hok.resolve_left hbusy⟩⟩

theorem State.Inv.busyEdge {w : Work} (hI : s.Inv) (hs : s.hs = .busy w) (ht : s.busyEdge w = .next t) : t.Inv := by
  cases w with
  | sending under => exact hI.sendEdge hs ht
  | inReset =>
    have hidle := hI.encoderIdle (by simp [hs])
    obtain rfl : s.holdFor (resetHold s.cfg) = t := by simpa [State.busyEdge] using ht
    exact hidle.holdFor_inv (Nat.le_refl _)
  | hold left =>
    have hidle := hI.encoderIdle (by simp [hs])
    obtain rfl : s.holdFor (left - 1) = t := by simpa [State.busyEdge] using ht
    exact hidle.holdFor_inv ((Nat.sub_le left 1).trans (hI.hold_le hs))
  | leadIn left under =>
    have hidle := hI.encoderIdle (by simp [hs])
    obtain ⟨hle, hu⟩ := hI.leadIn_le hs
    exact hidle.leadInFor_inv ((Nat.sub_le left 1).trans hle) hu ht
  | finishing left r =>
    have hidle := hI.encoderIdle (by simp [hs])
    obtain rfl : s.finishIn (left - 1) r = t := by simpa [State.busyEdge] using ht
    exact hidle.finishIn_inv (hI.finishing_ok hs) _

/-- Settles O56, by the kinds of edge a step can be (`step_eq_next`): each leaves the invariant's parts as the lemma about
its operation says. -/
theorem stepKeepsTheInvariant : Obligations.StepKeepsTheInvariant := by
  intro s t hI hstep
  obtain ⟨hv, ⟨-, rfl⟩ | ⟨hr, ⟨-, -, rfl⟩ | ⟨hs, hc, -⟩ | ⟨w, u, hs, hu, rfl⟩ | ⟨r, hs, -, rfl⟩ | ⟨r, -, -, rfl⟩⟩⟩ :=
    step_eq_next hstep
  · exact (State.resetEdge_inv hv).advance
  · exact hI.advance
  · have hidle := hI.encoderIdle (by simp [hs])
    rcases step_eq_next_of_accepting ⟨hv, hr, hs, hc⟩ hstep with ⟨-, rfl⟩ | ⟨-, u, hu, rfl⟩
    · exact (hidle.finishWith_inv (State.answer_fits hv _)).advance
    · exact (hidle.leadInFor_inv (Nat.le_refl _) (underOk_oracle s) hu).advance
  · exact (hI.busyEdge hs hu).advance
  · exact (hI.encoderIdle (by simp [hs])).ready_inv.advance
  · exact hI.advance

theorem State.resetWith_inv {c : Config} (hv : c.valid) : (State.resetWith c).Inv :=
  ⟨hv, by simp [State.resetWith, Memory.wf], by simp [State.resetWith, Memory.within], rfl⟩

/-- Settles O55: at reset `PIX` lists no cell and the encoder is idle. -/
theorem invariantHoldsAtReset : Obligations.InvariantHoldsAtReset :=
  ⟨fun _ hv => State.resetWith_inv hv, State.resetWith_inv (by decide)⟩

end Sys2Proof.Machine
end

section
/-! The ports, one edge at a time (10_state R28 to R31, R33, 30_encoding R73). -/

namespace Sys2Proof.Machine

variable {s t : State}

/-! The configuration. -/

/-- Settles O59: neither a command nor a BUSY edge touches the configuration, and no other edge does. -/
theorem configurationNeverChanges : Obligations.ConfigurationNeverChanges := by
  intro s t hstep
  obtain ⟨-, ⟨-, rfl⟩ | ⟨-, ⟨-, -, rfl⟩ | ⟨-, -, ⟨e, -, rfl⟩ | ⟨i, u, -, hu, rfl⟩⟩ | ⟨w, u, -, hu, rfl⟩ | ⟨r, -, -, rfl⟩ |
    ⟨r, -, -, rfl⟩⟩⟩ := step_eq_next hstep
  · rfl
  · rfl
  · rfl
  · exact (exec_keeps hu).1
  · exact (State.busyEdge_keeps hu).1
  · rfl
  · rfl

/-! Accepting a word. -/

theorem State.accepting_withFetchWord (hv : s.cfg.valid) (nbits w : Nat) : (s.withFetchWord nbits w).accepting :=
  ⟨hv, rfl, rfl, rfl⟩

theorem decode_tableWord {nbits w : Nat} {i : Instr} (h : decodeTableWord nbits w = some i) :
    decode (tableWord nbits w) = .ok i := by
  unfold decodeTableWord at h
  split at h
  · next hd => rw [hd, Option.some.inj h]
  · cases h

/-- Settles O12: `step_of_accepting_ok`, and the state `withFetchWord` builds accepts the word it presents. -/
theorem stepRunsTheAcceptedCommand : Obligations.StepRunsTheAcceptedCommand :=
  ⟨fun _ _ ha hd => step_of_accepting_ok ha hd, fun _ nbits w _ hv hi =>
    step_of_accepting_ok (State.accepting_withFetchWord hv nbits w) (decode_tableWord hi)⟩

/-! The command pins in a cycle that accepts nothing. -/

/-- `s` with other pins in this clk cycle. -/
def State.setPins (s : State) (p : Pins) : State := { s with inputs := p :: s.inputs.tail }

@[simp] theorem State.setPins_pins (s : State) (p : Pins) : (s.setPins p).pins = p := rfl
@[simp] theorem State.setPins_advance (s : State) (p : Pins) : (s.setPins p).advance = s.advance := rfl

theorem endCycle_leadInFor_setPins (s : State) (p : Pins) (k : Nat) (under : Option Nat) :
    endCycle ((s.setPins p).leadInFor k under) = endCycle (s.leadInFor k under) := by
  have hword : (s.setPins p).wireWord? 0 = s.wireWord? 0 := rfl
  unfold State.leadInFor State.startFrame
  rw [hword]
  split
  · split
    · rfl
    · cases s.wireWord? 0 <;> rfl
  · rfl

theorem endCycle_sendEdge_setPins (s : State) (p : Pins) (under : Option Nat) :
    endCycle ((s.setPins p).sendEdge under) = endCycle (s.sendEdge under) := by
  have hclock : (s.setPins p).enc.clock (s.setPins p).cfg under (s.setPins p).wireWord? =
      s.enc.clock s.cfg under s.wireWord? := rfl
  unfold State.sendEdge
  rw [hclock]
  cases s.enc.clock s.cfg under s.wireWord? with
  | error i => rfl
  | ok e => by_cases he : e.phase = .idle <;> simp only [he] <;> cases under <;> rfl

/-- No BUSY edge looks at a pin. -/
theorem endCycle_busyEdge_setPins (s : State) (p : Pins) (w : Work) :
    endCycle ((s.setPins p).busyEdge w) = endCycle (s.busyEdge w) := by
  cases w with
  | inReset => rfl
  | hold left => rfl
  | leadIn left under => exact endCycle_leadInFor_setPins s p _ under
  | sending under => exact endCycle_sendEdge_setPins s p under
  | finishing left r => rfl

/-- Where neither state accepts, the step asks the pins for `rst` and `rsp_ready` alone. -/
theorem step_setPins {p : Pins} (hrst : p.rst = s.pins.rst) (hready : p.rspReady = s.pins.rspReady)
    (hs : ¬ s.accepting) (ht : ¬ (s.setPins p).accepting) : step (s.setPins p) = step s := by
  by_cases hv : s.cfg.valid
  swap
  · rw [step_of_not_valid (s := s.setPins p) hv, step_of_not_valid hv]
  cases hr : s.pins.rst
  swap
  · rw [step_of_reset (s := s.setPins p) hv (hrst.trans hr), step_of_reset hv hr]
    rfl
  have hr' : (s.setPins p).pins.rst = false := hrst.trans hr
  cases hh : s.hs with
  | ready =>
    have hc : s.pins.cmdValid ≠ true := fun hc => hs ⟨hv, hr, hh, hc⟩
    have hc' : (s.setPins p).pins.cmdValid ≠ true := fun hc => ht ⟨hv, hr', hh, hc⟩
    rw [step_of_ready (s := s.setPins p) hv hr' hh, step_of_ready hv hr hh, if_neg hc, if_neg hc', State.setPins_advance]
  | busy w =>
    rw [step_of_busy (s := s.setPins p) hv hr' hh, step_of_busy hv hr hh, endCycle_busyEdge_setPins]
  | resp r =>
    rw [step_of_resp (s := s.setPins p) hv hr' hh, step_of_resp hv hr hh, State.setPins_pins, hready]
    split <;> rfl

/-- Settles O13: the two states differ in this cycle's pins only, and agree on the two pins that `step_setPins` asks
for. -/
theorem commandPinsAreReadOnlyWhenAccepting : Obligations.CommandPinsAreReadOnlyWhenAccepting := by
  rintro s _ ⟨v, d, rfl⟩ hs ht
  exact (step_setPins (p := { s.pins with cmdValid := v, cmdData := d }) rfl rfl hs ht).symm

/-! What `HS` shows on the pins, and the response. -/

theorem step_of_resp_waiting {r : ResponseWord} (hv : s.cfg.valid) (hr : s.pins.rst = false) (hs : s.hs = .resp r)
    (hp : s.pins.rspReady = false) : step s = .next s.advance := by
  simp [step_of_resp hv hr hs, hp]

theorem step_of_resp_taken {r : ResponseWord} (hv : s.cfg.valid) (hr : s.pins.rst = false) (hs : s.hs = .resp r)
    (hp : s.pins.rspReady = true) : step s = .next (s.setHs .ready).advance := by
  simp [step_of_resp hv hr hs, hp]

theorem State.cmdReady_of_ready (hs : s.hs = .ready) : s.cmdReady = true := by
  simp only [State.cmdReady, hs]

theorem State.cmdReady_of_busy {w : Work} (hs : s.hs = .busy w) : s.cmdReady = false := by
  simp only [State.cmdReady, hs]

theorem State.cmdReady_of_resp {r : ResponseWord} (hs : s.hs = .resp r) : s.cmdReady = false := by
  simp only [State.cmdReady, hs]

theorem State.rspValid_of_ready (hs : s.hs = .ready) : s.rspValid = false := by
  simp only [State.rspValid, hs]

theorem State.rspValid_of_busy {w : Work} (hs : s.hs = .busy w) : s.rspValid = false := by
  simp only [State.rspValid, hs]

theorem State.rspValid_of_resp {r : ResponseWord} (hs : s.hs = .resp r) : s.rspValid = true := by
  simp only [State.rspValid, hs]

theorem State.rspData_of_resp {r : ResponseWord} (hs : s.hs = .resp r) : s.rspData = r := by
  simp only [State.rspData, hs]

/-- Settles O15: an edge without `rsp_ready` only ends the clk cycle, one with it leaves READY. -/
theorem responseIsHeldUntilTaken : Obligations.ResponseIsHeldUntilTaken := by
  intro s r hv hr hs
  refine ⟨State.rspValid_of_resp hs, State.rspData_of_resp hs, fun hp => ⟨step_of_resp_waiting hv hr hs hp, ?_, ?_⟩,
    fun hp => ⟨_, step_of_resp_taken hv hr hs hp, rfl, rfl⟩⟩
  · exact State.rspValid_of_resp (s := s.advance) hs
  · exact State.rspData_of_resp (s := s.advance) hs

/-! `dout`. -/

theorem Enc.dout_iff (e : Enc) :
    e.dout = true ↔ e.phase = .data ∧ (e.sub = .a ∨ (e.sub = .b ∧ e.shr.getLsbD 23 = true)) := by
  cases hp : e.phase <;> cases hs : e.sub <;> simp [Enc.dout, hp, hs]

theorem Enc.dout_of_idle {e : Enc} (h : e.phase = .idle) : e.dout = false := by
  simp only [Enc.dout, h]

theorem Enc.txActive_of_idle {e : Enc} (h : e.phase = .idle) : e.txActive = false := by
  simp only [Enc.txActive, h]

/-- Settles O50: the shape of `Enc.dout`, and outside a sending RENDER the invariant has the encoder idle. -/
theorem doutIsHighOnlyInBitCells : Obligations.DoutIsHighOnlyInBitCells := by
  refine fun s => ⟨s.enc.dout_iff, fun hI hdout => ?_⟩
  by_contra hnot
  have hidle := hI.encoderIdle fun under hs => hnot ⟨under, hs⟩
  exact Bool.false_ne_true ((Enc.dout_of_idle hidle.idle).symm.trans hdout)

/-! The order of the handshake. -/

theorem State.leadInFor_hs {k : Nat} {under : Option Nat} (h : s.leadInFor k under = .next t) :
    ∃ w, t.hs = .busy w := by
  rcases State.leadInFor_eq_next h with ⟨-, rfl⟩ | ⟨-, h⟩
  · exact ⟨_, rfl⟩
  · obtain ⟨e, rfl, -⟩ := State.startFrame_eq_next h
    exact ⟨_, rfl⟩

theorem State.finishIn_hs_cases (s : State) (k : Nat) (r : ResponseWord) :
    (∃ w, (s.finishIn k r).hs = .busy w) ∨ ∃ r', (s.finishIn k r).hs = .resp r' := by
  rcases Nat.eq_zero_or_pos k with rfl | hk
  · exact .inr ⟨r, rfl⟩
  · rw [State.finishIn_pos s r hk]
    exact .inl ⟨_, rfl⟩

/-- The edge that accepts a word leaves LPE BUSY, since every answer takes a cycle. -/
theorem step_hs_of_accepting (ha : s.accepting) (h : step s = .next t) : ∃ w, t.hs = .busy w := by
  have hv := ha.1
  rcases step_eq_next_of_accepting ha h with ⟨-, rfl⟩ | ⟨-, u, hu, rfl⟩
  · rw [State.advance_hs, State.finishWith, State.finishIn_pos _ _ (State.answer_fits hv _).busy]
    exact ⟨_, rfl⟩
  · exact State.leadInFor_hs (t := u) hu

/-- A BUSY edge leads to more BUSY cycles, to the response, or from the reset hold to READY. -/
theorem State.busyEdge_hs {w : Work} (hv : s.cfg.valid) (hs : s.hs = .busy w) (h : s.busyEdge w = .next t) :
    (∃ w', t.hs = .busy w') ∨ (∃ r, t.hs = .resp r) ∨ (t.hs = .ready ∧ ∃ left, w = .hold left) := by
  cases w with
  | inReset =>
    obtain rfl : s.holdFor (resetHold s.cfg) = t := by simpa [State.busyEdge] using h
    have hpos : 1 ≤ resetHold s.cfg := Nat.le_add_right_of_le (Config.tLatch_pos hv)
    rw [State.holdFor_pos s hpos]
    exact .inl ⟨_, rfl⟩
  | hold left =>
    obtain rfl : s.holdFor (left - 1) = t := by simpa [State.busyEdge] using h
    rcases Nat.eq_zero_or_pos (left - 1) with hz | hpos
    · rw [hz]
      exact .inr (.inr ⟨rfl, left, rfl⟩)
    · rw [State.holdFor_pos s hpos]
      exact .inl ⟨_, rfl⟩
  | leadIn left under => exact .inl (State.leadInFor_hs h)
  | sending under =>
    obtain ⟨e, -, ⟨-, rfl⟩ | ⟨-, rfl⟩⟩ := State.sendEdge_eq_next h
    · exact (State.finishIn_hs_cases _ _ _).imp_right .inl
    · exact .inl ⟨_, hs⟩
  | finishing left r =>
    obtain rfl : s.finishIn (left - 1) r = t := by simpa [State.busyEdge] using h
    exact (State.finishIn_hs_cases _ _ _).imp_right .inl

/-- Settles O14, by what `HS` is: READY moves as `step_hs_of_accepting` says, BUSY as `State.busyEdge_hs`, RESP as the host
takes the response. -/
theorem handshakeMovesInOrder : Obligations.HandshakeMovesInOrder := by
  intro s t hI hr hstep
  have hv := hI.1
  split
  · next hs =>
    have hidle := (hI.encoderIdle (by simp [hs])).idle
    refine ⟨⟨State.cmdReady_of_ready hs, State.rspValid_of_ready hs, hidle, Enc.dout_of_idle hidle⟩,
      fun hc => step_hs_of_accepting ⟨hv, hr, hs, hc⟩ hstep, fun hc => ?_⟩
    simpa [step_of_ready hv hr hs, hc] using hstep.symm
  · next w hs =>
    rw [step_of_busy hv hr hs] at hstep
    obtain ⟨u, hu, rfl⟩ := endCycle_eq_next hstep
    exact ⟨⟨State.cmdReady_of_busy hs, State.rspValid_of_busy hs⟩, State.busyEdge_hs (t := u) hv hs hu⟩
  · next r hs =>
    refine ⟨⟨State.cmdReady_of_resp hs, State.rspValid_of_resp hs⟩, fun hp => ?_, fun hp => ?_⟩
    · rw [step_of_resp_taken hv hr hs hp] at hstep
      obtain rfl : (s.setHs .ready).advance = t := by simpa using hstep
      rfl
    · rw [step_of_resp_waiting hv hr hs hp] at hstep
      obtain rfl : s.advance = t := by simpa using hstep
      exact hs

end Sys2Proof.Machine
end

section
/-! The encoder fields that nothing reads (10_state R26, V3): two encoders that read alike clock to two that read alike, and
so does every edge of the machine around them. -/

namespace Sys2Proof.Machine

/-- The two encoders agree in every field that their phase reads. -/
def Enc.ReadsAs (e e' : Enc) : Prop :=
  e.phase = e'.phase ∧ (e.phase ≠ .idle → e.cnt = e'.cnt) ∧ (e.phase = .data → e = e')

/-- The outcome is `t`, but for encoder fields that nothing reads. -/
def NextReadsAs (t : State) (o : Out) : Prop :=
  ∃ e, o = .next (t.setEnc e) ∧ t.enc.ReadsAs e

variable {s t : State} {e e' f : Enc} {under : Option Nat}

theorem State.sameButUnreadEnc_iff : s.sameButUnreadEnc t ↔ ∃ e, t = s.setEnc e ∧ s.enc.ReadsAs e := by
  constructor
  · rintro ⟨ht, hread⟩
    exact ⟨t.enc, ht, hread⟩
  · rintro ⟨e, rfl, hread⟩
    exact ⟨rfl, hread⟩

theorem Enc.ReadsAs.refl (e : Enc) : e.ReadsAs e := ⟨rfl, fun _ => rfl, fun _ => rfl⟩

theorem Enc.readsAs_of_idle (h : e.phase = .idle) (h' : e'.phase = .idle) : e.ReadsAs e' :=
  ⟨h.trans h'.symm, fun hne => absurd h hne, fun hd => absurd (h.symm.trans hd) (by decide)⟩

theorem Enc.readsAs_of_ne_data (h : e.phase = e'.phase) (hc : e.cnt = e'.cnt) (hd : e.phase ≠ .data) : e.ReadsAs e' :=
  ⟨h, fun _ => hc, fun h => absurd h hd⟩

theorem Enc.ReadsAs.dout (h : e.ReadsAs e') : e.dout = e'.dout := by
  obtain ⟨hphase, -, hdata⟩ := h
  cases hp : e.phase with
  | data => rw [hdata hp]
  | idle | latch | settle => simp only [Enc.dout, ← hphase, hp]

theorem Enc.ReadsAs.txActive (h : e.ReadsAs e') : e.txActive = e'.txActive := by
  simp only [Enc.txActive, h.1]

/-- Encoders that read alike clock alike. -/
theorem Enc.ReadsAs.clock {c : Config} {word : Nat → Option WireWord} (h : e.ReadsAs e')
    (hf : e.clock c under word = .ok f) : ∃ f', e'.clock c under word = .ok f' ∧ f.ReadsAs f' := by
  have ⟨hphase, hcnt, hdata⟩ := h
  cases hp : e.phase with
  | idle =>
    obtain rfl : e = f := by simpa [Enc.clock_idle hp] using hf
    exact ⟨e', Enc.clock_idle (hphase ▸ hp), h⟩
  | data => exact ⟨f, hdata hp ▸ hf, .refl f⟩
  | latch =>
    have hp' : e'.phase = .latch := hphase ▸ hp
    have hc := hcnt (by simp [hp])
    by_cases hlt : e.cnt + 1 < c.tLatch
    · obtain rfl : { e with cnt := e.cnt + 1 } = f := by simpa [Enc.clock_latch_count hp hlt] using hf
      exact ⟨_, Enc.clock_latch_count hp' (hc ▸ hlt),
        Enc.readsAs_of_ne_data hphase (congrArg (· + 1) hc) (by simp [hp])⟩
    · rw [Enc.clock_latch_end hp hlt] at hf
      refine ⟨_, Enc.clock_latch_end hp' (hc ▸ hlt), Except.ok.inj hf ▸ Enc.readsAs_of_ne_data rfl rfl ?_⟩
      show (if 0 < c.tSettle then Phase.settle else Phase.idle) ≠ .data
      split <;> decide
  | settle =>
    have hp' : e'.phase = .settle := hphase ▸ hp
    have hc := hcnt (by simp [hp])
    by_cases hlt : e.cnt + 1 < c.tSettle
    · obtain rfl : { e with cnt := e.cnt + 1 } = f := by simpa [Enc.clock_settle_count hp hlt] using hf
      exact ⟨_, Enc.clock_settle_count hp' (hc ▸ hlt),
        Enc.readsAs_of_ne_data hphase (congrArg (· + 1) hc) (by simp [hp])⟩
    · rw [Enc.clock_settle_end hp hlt] at hf
      exact ⟨_, Enc.clock_settle_end hp' (hc ▸ hlt), Except.ok.inj hf ▸ Enc.readsAs_of_idle rfl rfl⟩

/-! The machine around the encoder. -/

theorem NextReadsAs.endCycle {o : Out} (h : NextReadsAs t o) : NextReadsAs t.advance (endCycle o) := by
  obtain ⟨e, rfl, hread⟩ := h
  exact ⟨e, rfl, hread⟩

/-- A frame begins alike whatever the encoder held. -/
theorem State.startFrame_setEnc (h : s.startFrame under = .next t) (e : Enc) :
    NextReadsAs t ((s.setEnc e).startFrame under) := by
  obtain ⟨f, rfl, ⟨rfl, rfl⟩ | ⟨hu, hn, rfl⟩⟩ := State.startFrame_eq_next h
  · exact ⟨_, State.startFrame_zero _, Enc.readsAs_of_ne_data rfl rfl (fun h => nomatch h)⟩
  · exact ⟨_, State.startFrame_pixel (s := s.setEnc e) hn hu, .refl _⟩

theorem State.leadInFor_setEnc {k : Nat} (h : s.leadInFor k under = .next t) (hread : s.enc.ReadsAs e) :
    NextReadsAs t ((s.setEnc e).leadInFor k under) := by
  rcases State.leadInFor_eq_next h with ⟨hk, rfl⟩ | ⟨rfl, h⟩
  · exact ⟨e, State.leadInFor_pos _ hk under, hread⟩
  · exact State.startFrame_setEnc h e

theorem State.sendEdge_setEnc (h : s.sendEdge under = .next t) (hread : s.enc.ReadsAs e) :
    NextReadsAs t ((s.setEnc e).sendEdge under) := by
  obtain ⟨f, hf, hcases⟩ := State.sendEdge_eq_next h
  obtain ⟨f', hf', hread'⟩ := hread.clock hf
  have hedge := State.sendEdge_of_ok (s := s.setEnc e) hf'
  rcases hcases with ⟨hidle, rfl⟩ | ⟨hbusy, rfl⟩
  · exact ⟨f', hedge.trans (if_pos (hread'.1 ▸ hidle)), hread'⟩
  · exact ⟨f', hedge.trans (if_neg (hread'.1 ▸ hbusy)), hread'⟩

theorem State.busyEdge_setEnc {w : Work} (h : s.busyEdge w = .next t) (hread : s.enc.ReadsAs e) :
    NextReadsAs t ((s.setEnc e).busyEdge w) := by
  cases w with
  | leadIn left under => exact State.leadInFor_setEnc h hread
  | sending under => exact State.sendEdge_setEnc h hread
  | inReset =>
    obtain rfl : s.holdFor (resetHold s.cfg) = t := by simpa [State.busyEdge] using h
    exact ⟨e, rfl, hread⟩
  | hold left =>
    obtain rfl : s.holdFor (left - 1) = t := by simpa [State.busyEdge] using h
    exact ⟨e, rfl, hread⟩
  | finishing left r =>
    obtain rfl : s.finishIn (left - 1) r = t := by simpa [State.busyEdge] using h
    exact ⟨e, rfl, hread⟩

/-- States whose encoders read alike step to states whose encoders read alike. -/
theorem step_setEnc (h : step s = .next t) (hread : s.enc.ReadsAs e) : NextReadsAs t (step (s.setEnc e)) := by
  obtain ⟨hv, ⟨hr, rfl⟩ | ⟨hr, ⟨hs, hc, rfl⟩ | ⟨hs, hc, -⟩ | ⟨w, u, hs, hu, rfl⟩ | ⟨r, hs, hp, rfl⟩ | ⟨r, hs, hp, rfl⟩⟩⟩ :=
    step_eq_next h
  · exact ⟨{ e with phase := .idle }, step_of_reset (s := s.setEnc e) hv hr, Enc.readsAs_of_idle rfl rfl⟩
  · refine ⟨e, ?_, hread⟩
    rw [step_of_ready (s := s.setEnc e) hv hr hs, if_neg (by simp [hc])]
    rfl
  · have ha : s.accepting := ⟨hv, hr, hs, hc⟩
    have ha' : (s.setEnc e).accepting := ha
    rcases step_eq_next_of_accepting ha h with ⟨hd, rfl⟩ | ⟨hd, u, hu, rfl⟩
    · exact ⟨e, step_of_not_render ha' hd, hread⟩
    · rw [step_of_render ha' hd]
      exact (State.leadInFor_setEnc hu hread).endCycle
  · rw [step_of_busy (s := s.setEnc e) hv hr hs]
    exact (State.busyEdge_setEnc hu hread).endCycle
  · exact ⟨e, step_of_resp_taken (s := s.setEnc e) hv hr hs hp, hread⟩
  · exact ⟨e, step_of_resp_waiting (s := s.setEnc e) hv hr hs hp, hread⟩

/-- Settles O60: the pins read `HS` and what `Enc.ReadsAs` keeps, and `step_setEnc` keeps it. -/
theorem unreadEncoderFieldsChangeNothing : Obligations.UnreadEncoderFieldsChangeNothing := by
  intro s t hsame
  obtain ⟨e, rfl, hread⟩ := State.sameButUnreadEnc_iff.1 hsame
  refine ⟨⟨hread.dout, hread.txActive, rfl, rfl, rfl⟩, fun s' hstep => ?_⟩
  obtain ⟨e', hstep', hread'⟩ := step_setEnc hstep hread
  exact ⟨_, hstep', State.sameButUnreadEnc_iff.2 ⟨e', rfl, hread'⟩⟩

end Sys2Proof.Machine
end

section
/-! Runs of BUSY cycles: what the four output pins show along them, how they compose, and the two pieces of work that only
count down, the latency of a command and the reset hold (10_state R30, 70_reset_and_hazards R152, log 3, log 9). -/

namespace Sys2Proof.Machine

/-- The state `k` clk cycles on, with this encoder and this handshake; `PIX`, `BRIGHT` and the configuration stay. -/
def State.after (s : State) (k : Nat) (e : Enc) (h : Handshake) : State :=
  { s with enc := e, hs := h, inputs := s.inputs.drop k, cycle := s.cycle + k }

@[simp] theorem State.after_cfg (s : State) (k : Nat) (e : Enc) (h : Handshake) : (s.after k e h).cfg = s.cfg := rfl
@[simp] theorem State.after_pix (s : State) (k : Nat) (e : Enc) (h : Handshake) : (s.after k e h).pix = s.pix := rfl
@[simp] theorem State.after_bright (s : State) (k : Nat) (e : Enc) (h : Handshake) :
    (s.after k e h).bright = s.bright := rfl
@[simp] theorem State.after_enc (s : State) (k : Nat) (e : Enc) (h : Handshake) : (s.after k e h).enc = e := rfl
@[simp] theorem State.after_hs (s : State) (k : Nat) (e : Enc) (h : Handshake) : (s.after k e h).hs = h := rfl
@[simp] theorem State.after_self (s : State) : s.after 0 s.enc s.hs = s := rfl

@[simp] theorem State.after_after (s : State) (j k : Nat) (e e' : Enc) (h h' : Handshake) :
    (s.after j e h).after k e' h' = s.after (j + k) e' h' := by
  simp [State.after, Nat.add_assoc]

theorem State.advance_eq_after (s : State) : s.advance = s.after 1 s.enc s.hs := by
  simp [State.advance, State.after]

/-- From `s` LPE is BUSY for `k` clk cycles, with `d` on `dout` and `x` on `tx_active`, and is then in `t`. -/
structure BusyRun (k : Nat) (s t : State) (d x : List Bool) : Prop where
  run : runFor k s = some t
  dout : trace State.dout k s = d
  txActive : trace State.txActive k s = x
  cmdReady : trace State.cmdReady k s = emit false k
  rspValid : trace State.rspValid k s = emit false k

variable {s t u : State} {j k : Nat} {d d' x x' : List Bool}

theorem emit_add (b : Bool) (j k : Nat) : emit b (j + k) = emit b j ++ emit b k :=
  (List.replicate_append_replicate).symm

theorem emit_succ (b : Bool) (k : Nat) : emit b (k + 1) = b :: emit b k := rfl

namespace BusyRun

theorem zero (s : State) : BusyRun 0 s s [] [] := ⟨rfl, rfl, rfl, rfl, rfl⟩

theorem cons {w : Work} (hs : s.hs = .busy w) (hstep : step s = .next t) (h : BusyRun k t u d x) :
    BusyRun (k + 1) s u (s.dout :: d) (s.txActive :: x) where
  run := (runFor_succ hstep k).trans h.run
  dout := by rw [trace_succ hstep, h.dout]
  txActive := by rw [trace_succ hstep, h.txActive]
  cmdReady := by rw [trace_succ hstep, h.cmdReady, State.cmdReady_of_busy hs, emit_succ]
  rspValid := by rw [trace_succ hstep, h.rspValid, State.rspValid_of_busy hs, emit_succ]

theorem append (h : BusyRun j s t d x) (h' : BusyRun k t u d' x') : BusyRun (j + k) s u (d ++ d') (x ++ x') where
  run := (runFor_add h.run k).trans h'.run
  dout := by rw [trace_add h.run, h.dout, h'.dout]
  txActive := by rw [trace_add h.run, h.txActive, h'.txActive]
  cmdReady := by rw [trace_add h.run, h.cmdReady, h'.cmdReady, emit_add]
  rspValid := by rw [trace_add h.run, h.rspValid, h'.rspValid, emit_add]

end BusyRun

theorem State.noReset_step (h : s.noReset (k + 1)) (hstep : step s = .next t) : t.noReset k :=
  State.noReset_runFor (j := 1) (Nat.add_comm k 1 ▸ h) (runFor_succ hstep 0)

/-- `HS` with `k` more cycles of a work that counts down, and `final` after them. -/
def Handshake.countdown (work : Nat → Work) (final : Handshake) (k : Nat) : Handshake :=
  if k = 0 then final else .busy (work k)

/-- A work that does nothing but count down keeps LPE BUSY for the cycles it has left, its encoder standing. -/
theorem countdown_run {work : Nat → Work} {final : Handshake}
    (hwork : ∀ (s : State) (k : Nat), s.busyEdge (work (k + 1)) = .next (s.setHs (.countdown work final k)))
    (hv : s.cfg.valid) (hr : s.noReset k) (hs : s.hs = .countdown work final k) :
    BusyRun k s (s.after k s.enc final) (emit s.dout k) (emit s.txActive k) := by
  induction k generalizing s with
  | zero =>
    obtain rfl : s.hs = final := hs
    exact .zero s
  | succ k ih =>
    have hb : s.hs = .busy (work (k + 1)) := hs
    have hstep : step s = .next (s.after 1 s.enc (.countdown work final k)) := by
      rw [step_of_busy hv (State.noReset_now hr) hb, hwork, endCycle_next, State.advance_eq_after]
      rfl
    have hrest := ih (s := s.after 1 s.enc (.countdown work final k)) hv (State.noReset_step hr hstep) rfl
    rw [State.after_after, Nat.add_comm 1 k] at hrest
    exact .cons hb hstep hrest

/-- The latency of a command, or the lead-out of a RENDER, and then the response. -/
theorem finishIn_run {r : ResponseWord} (hv : s.cfg.valid) (hr : s.noReset k)
    (hs : s.hs = .countdown (.finishing · r) (.resp r) k) :
    BusyRun k s (s.after k s.enc (.resp r)) (emit s.dout k) (emit s.txActive k) :=
  countdown_run (fun _ _ => rfl) hv hr hs

/-- From the cycle after a reset edge: the reset hold, and then READY. -/
theorem resetHold_run (hv : s.cfg.valid) (hr : s.noReset (resetHold s.cfg + 1)) (hs : s.hs = .busy .inReset) :
    BusyRun (resetHold s.cfg + 1) s (s.after (resetHold s.cfg + 1) s.enc .ready) (emit s.dout (resetHold s.cfg + 1))
      (emit s.txActive (resetHold s.cfg + 1)) := by
  have hstep : step s = .next (s.after 1 s.enc (.countdown .hold .ready (resetHold s.cfg))) := by
    rw [step_of_busy hv (State.noReset_now hr) hs, State.busyEdge, endCycle_next, State.advance_eq_after]
    rfl
  have hrest := countdown_run (work := .hold) (final := .ready)
    (s := s.after 1 s.enc (.countdown .hold .ready (resetHold s.cfg))) (fun _ _ => rfl) hv (State.noReset_step hr hstep) rfl
  rw [State.after_after, Nat.add_comm 1] at hrest
  exact .cons hs hstep hrest

/-- Settles O54: the reset values are `State.resetWith`'s fields, and `resetHold_run` is the hold after them. -/
theorem resetStateHoldsTheSpecValues : Obligations.ResetStateHoldsTheSpecValues := by
  intro c hv
  have hrun := resetHold_run (s := State.resetWith c) hv (by simp [State.noReset, State.resetWith]) rfl
  exact ⟨fun _ => rfl, rfl, rfl, rfl, rfl, rfl, rfl, _, hrun.run, rfl, rfl, fun _ => rfl, rfl, rfl⟩

end Sys2Proof.Machine
end

section
/-! The encoder alone, from the first bit of a frame to `IDLE`: a phase of a bit cell, a cell, a word, the frame, the latch
gap and the settle time put on `dout` what the waveforms of the spec say (42_protocol_encoder R96 to R103, R108). -/

namespace Sys2Proof.Machine

/-- The encoder clocks from the one state to the other, out of `IDLE` in every cycle between, and shows these levels on
`dout` and `tx_active`. -/
inductive Enc.Sends (c : Config) (under : Option Nat) (word : Nat → Option WireWord) :
    Enc → List Bool → List Bool → Enc → Prop where
  | done (e : Enc) : Sends c under word e [] [] e
  | edge {e e' f : Enc} {d x : List Bool} (busy : e.phase ≠ .idle) (clock : e.clock c under word = .ok e')
      (rest : Sends c under word e' d x f) : Sends c under word e (e.dout :: d) (e.txActive :: x) f

variable {c : Config} {under : Option Nat} {word : Nat → Option WireWord} {e f g : Enc} {d d' x x' : List Bool}

theorem Enc.Sends.trans (h : Enc.Sends c under word e d x f) (h' : Enc.Sends c under word f d' x' g) :
    Enc.Sends c under word e (d ++ d') (x ++ x') g := by
  induction h with
  | done e => exact h'
  | edge busy clock _ ih => exact .edge busy clock (ih h')

/-- `ENC` with another count. -/
def Enc.withCnt (e : Enc) (n : Nat) : Enc := { e with cnt := n }

/-- Where the encoder only counts until the last of `len` cycles, it shows the same levels in all of them. -/
theorem Enc.sends_counting {len : Nat} (hbusy : e.phase ≠ .idle)
    (hcount : ∀ n, n + 1 < len → (e.withCnt n).clock c under word = .ok (e.withCnt (n + 1)))
    (hlast : ∀ n, n + 1 = len → (e.withCnt n).clock c under word = .ok f) {left : Nat} (hpos : 1 ≤ left) {n : Nat}
    (hn : n + left = len) : Enc.Sends c under word (e.withCnt n) (emit e.dout left) (emit e.txActive left) f := by
  induction left, hpos using Nat.le_induction generalizing n with
  | base => exact .edge hbusy (hlast n hn) (.done f)
  | succ left hleft ih => exact .edge hbusy (hcount n (by omega)) (ih (by omega))

/-- The bit cell of `e` has just begun. -/
structure Enc.CellStart (e : Enc) : Prop where
  phase : e.phase = .data
  sub : e.sub = .a
  cnt : e.cnt = 0

/-- Phase A, B or C of a bit cell. -/
theorem Enc.sends_phase {s : Sub} (hpos : 1 ≤ phaseLen c s) (hp : e.phase = .data) (hs : e.sub = s) (hc : e.cnt = 0)
    (hlast : ∀ n, n + 1 = phaseLen c s → (e.withCnt n).clock c under word = .ok f) :
    Enc.Sends c under word e (emit e.dout (phaseLen c s)) (emit true (phaseLen c s)) f := by
  have htx : e.txActive = true := by simp only [Enc.txActive, hp]
  have hstart : e.withCnt 0 = e := by rw [← hc]; rfl
  have hrun := Enc.sends_counting (by simp [hp])
    (fun n hn => Enc.clock_data_count (e := e.withCnt n) hp (hs ▸ hn)) hlast hpos (Nat.zero_add _)
  rwa [htx, hstart] at hrun

/-- One bit cell, and then what the cell's last edge gives. -/
theorem Enc.sends_cell (hv : c.valid) (he : e.CellStart)
    (hend : ∀ n, ({ e with sub := .c, cnt := n } : Enc).endCell c under word = .ok f) :
    Enc.Sends c under word e (cell c (e.shr.getLsbD 23)) (emit true (cellLen c)) f := by
  obtain ⟨-, ⟨h1, h2, h3⟩, -⟩ := c.valid_iff.1 hv
  obtain ⟨hp, hs, hc⟩ := he
  have ha := Enc.sends_phase (under := under) (word := word) (f := { e with sub := .b, cnt := 0 }) (s := .a) h1 hp hs hc
    fun n hn => Enc.clock_data_a (e := e.withCnt n) hp hs fun hlt => Nat.ne_of_lt hlt hn
  have hb := Enc.sends_phase (under := under) (word := word) (e := { e with sub := .b, cnt := 0 })
    (f := { e with sub := .c, cnt := 0 }) (s := .b) h2 hp rfl rfl
    fun n hn => Enc.clock_data_b (e := { e with sub := .b, cnt := n }) hp rfl fun hlt => Nat.ne_of_lt hlt hn
  have hc := Enc.sends_phase (under := under) (word := word) (e := { e with sub := .c, cnt := 0 }) (s := .c) h3 hp rfl rfl
    fun n hn => (Enc.clock_data_c (e := { e with sub := .c, cnt := n }) hp rfl fun hlt => Nat.ne_of_lt hlt hn).trans
      (hend n)
  have hrun := (ha.trans hb).trans hc
  simpa only [cell, cellLen, phaseLen, emit_add, Enc.dout, hp, hs] using hrun

/-- The encoder at bit `b` of the wire word `w` of pixel `i` (R108). -/
def Enc.atBit (i : Nat) (w : WireWord) (b : Nat) : Enc := ⟨.data, i, b, .a, 0, w <<< (23 - b)⟩

theorem wordBits_eq (w : WireWord) : wordBits w = (List.range 24).reverse.map w.getLsbD := rfl

theorem Enc.atBit_top (i : Nat) (w : WireWord) : Enc.atBit i w 23 = Enc.startPixel i w := by
  simp [Enc.atBit, Enc.startPixel]

/-- The bit being sent. -/
theorem Enc.atBit_bit {i b : Nat} {w : WireWord} (hb : b ≤ 23) : (Enc.atBit i w b).shr.getLsbD 23 = w.getLsbD b := by
  have hlt : ¬ 23 < 23 - b := by omega
  have hsub : 23 - (23 - b) = b := by omega
  simp only [Enc.atBit, BitVec.getLsbD_shiftLeft, hlt, hsub, decide_false, Bool.not_false, Bool.and_true]
  rfl

theorem range_reverse_succ_map (g : Nat → Bool) (b : Nat) :
    (List.range (b + 1)).reverse.map g = g b :: (List.range b).reverse.map g := by
  simp [List.range_succ]

/-- The bits of a wire word from bit `b` down, and then what the pixel's last edge gives. -/
theorem Enc.sends_bits (hv : c.valid) {i : Nat} {w : WireWord}
    (hend : ∀ n : Nat, (⟨.data, i, 0, .c, n, w <<< 23⟩ : Enc).endCell c under word = .ok f) {b : Nat} (hb : b ≤ 23) :
    Enc.Sends c under word (.atBit i w b) (((List.range (b + 1)).reverse.map w.getLsbD).flatMap (cell c))
      (emit true ((b + 1) * cellLen c)) f := by
  induction b with
  | zero =>
    have hrun := Enc.sends_cell hv (e := .atBit i w 0) ⟨rfl, rfl, rfl⟩ hend
    rw [Enc.atBit_bit hb] at hrun
    simpa using hrun
  | succ b ih =>
    have hnext : ∀ n, ({ Enc.atBit i w (b + 1) with sub := .c, cnt := n } : Enc).endCell c under word =
        .ok (.atBit i w b) := fun n => by
      have hshift : w <<< (23 - (b + 1)) <<< 1 = w <<< (23 - b) := by
        rw [← BitVec.shiftLeft_add]
        congr 1
        omega
      rw [Enc.endCell_bit (Nat.succ_pos b)]
      simp only [Enc.atBit, hshift, Nat.add_sub_cancel]
    have hrun := (Enc.sends_cell hv (e := .atBit i w (b + 1)) ⟨rfl, rfl, rfl⟩ hnext).trans (ih (by omega))
    rwa [Enc.atBit_bit hb, ← emit_add, ← List.flatMap_cons, ← range_reverse_succ_map, Nat.add_comm (cellLen c),
      ← Nat.succ_mul] at hrun

/-- One pixel, and then what its last edge gives. -/
theorem Enc.sends_pixel (hv : c.valid) {i : Nat} {w : WireWord}
    (hend : ∀ n : Nat, (⟨.data, i, 0, .c, n, w <<< 23⟩ : Enc).endCell c under word = .ok f) :
    Enc.Sends c under word (.startPixel i w) ((wordBits w).flatMap (cell c)) (emit true (24 * cellLen c)) f :=
  Enc.atBit_top i w ▸ wordBits_eq w ▸ Enc.sends_bits hv hend (Nat.le_refl 23)

theorem waveData_cons (c : Config) (w : WireWord) (ws : List WireWord) :
    waveData c (w :: ws) = (wordBits w).flatMap (cell c) ++ waveData c ws := by
  simp [waveData, frameBits]

theorem dataLen_succ (c : Config) (m : Nat) : dataLen c (m + 1) = 24 * cellLen c + dataLen c m := by
  unfold dataLen
  ring

/-- The frame is over after the last pixel it sends, and after no other (R108). -/
theorem last_pixel_iff {i : Nat} (hu : underOk c under) (hi : i < pixelsSent c under) :
    (i + 1 = c.n ∨ under = some (i + 1)) ↔ i + 1 = pixelsSent c under := by
  cases under with
  | none => simp [pixelsSent]
  | some k =>
    have hk : k < c.n := hu.1
    have hi : i < k := hi
    simp only [pixelsSent, Option.getD_some, Option.some.injEq]
    omega

/-- The `k` last pixels of a frame, from pixel `i` on, and then the latch gap. -/
theorem Enc.sends_pixels (hv : c.valid) (hu : underOk c under) {wire : Nat → WireWord}
    (hword : ∀ j, j < c.n → word j = some (wire j)) {k : Nat} (hk : 1 ≤ k) {i : Nat} (hi : i + k = pixelsSent c under) :
    ∃ f, f.phase = .latch ∧ f.cnt = 0 ∧ Enc.Sends c under word (.startPixel i (wire i))
      (waveData c ((List.range' i k).map wire)) (emit true (dataLen c k)) f := by
  induction k, hk using Nat.le_induction generalizing i with
  | base =>
    have hlast := (last_pixel_iff hu (by omega)).2 hi
    have hrun := Enc.sends_pixel (under := under) (word := word) (f := ⟨.latch, i, 0, .c, 0, wire i <<< 23⟩) hv
      fun n => Enc.endCell_last (e := ⟨.data, i, 0, .c, n, wire i <<< 23⟩) rfl hlast
    refine ⟨⟨.latch, i, 0, .c, 0, wire i <<< 23⟩, rfl, rfl, ?_⟩
    simpa [waveData, frameBits, dataLen] using hrun
  | succ k hk ih =>
    have hmore : ¬ (i + 1 = c.n ∨ under = some (i + 1)) := fun hl => by
      have := (last_pixel_iff hu (by omega)).1 hl
      omega
    have hn : i + 1 < c.n := by
      have := pixelsSent_le hu
      omega
    obtain ⟨f, hp, hc, hrest⟩ := ih (i := i + 1) (by omega)
    have hrun := Enc.sends_pixel (under := under) (word := word) (f := .startPixel (i + 1) (wire (i + 1))) hv
      fun n => Enc.endCell_pixel (e := ⟨.data, i, 0, .c, n, wire i <<< 23⟩) rfl hmore (hword (i + 1) hn)
    refine ⟨f, hp, hc, ?_⟩
    rw [List.range'_succ, List.map_cons, waveData_cons, dataLen_succ, emit_add]
    exact hrun.trans hrest

/-- A gap of the frame: the encoder counts with both levels low, and then leaves it. -/
theorem Enc.sends_gap {len : Nat} (hpos : 1 ≤ len) (hp : e.phase = .latch ∨ e.phase = .settle) (hc : e.cnt = 0)
    (hcount : ∀ n, n + 1 < len → (e.withCnt n).clock c under word = .ok (e.withCnt (n + 1)))
    (hlast : ∀ n, n + 1 = len → (e.withCnt n).clock c under word = .ok f) :
    Enc.Sends c under word e (emit false len) (emit false len) f := by
  have hstart : e.withCnt 0 = e := by rw [← hc]; rfl
  have hlow : e.dout = false ∧ e.txActive = false ∧ e.phase ≠ .idle := by
    rcases hp with hp | hp <;> simp [Enc.dout, Enc.txActive, hp]
  obtain ⟨hdout, htx, hbusy⟩ := hlow
  have hrun := Enc.sends_counting hbusy hcount hlast hpos (Nat.zero_add len)
  rwa [hstart, hdout, htx] at hrun

theorem Enc.sends_settle (hpos : 1 ≤ c.tSettle) (hp : e.phase = .settle) (hc : e.cnt = 0) :
    ∃ f, f.phase = .idle ∧ Enc.Sends c under word e (emit false c.tSettle) (emit false c.tSettle) f :=
  ⟨{ e with phase := .idle, cnt := c.tSettle - 1 }, rfl, Enc.sends_gap hpos (.inr hp) hc
    (fun n hn => Enc.clock_settle_count (e := e.withCnt n) hp hn) fun n hn => by
      rw [Enc.clock_settle_end (e := e.withCnt n) hp fun hlt => Nat.ne_of_lt hlt hn, ← hn]
      rfl⟩

/-- `ENC` after the last cycle of the latch gap (R108). -/
def Enc.leaveLatch (c : Config) (e : Enc) : Enc :=
  { e with phase := if 0 < c.tSettle then .settle else .idle, cnt := 0 }

/-- The latch gap and the settle time, where there is one, and then `IDLE` (R100, R101). -/
theorem Enc.sends_latch (hv : c.valid) (hp : e.phase = .latch) (hc : e.cnt = 0) :
    ∃ f, f.phase = .idle ∧
      Enc.Sends c under word e (emit false (c.tLatch + c.tSettle)) (emit false (c.tLatch + c.tSettle)) f := by
  have hgap := Enc.sends_gap (under := under) (word := word)
    (f := e.leaveLatch c) (Config.tLatch_pos hv) (.inl hp) hc
    (fun n hn => Enc.clock_latch_count (e := e.withCnt n) hp hn)
    fun n hn => Enc.clock_latch_end (e := e.withCnt n) hp fun hlt => Nat.ne_of_lt hlt hn
  rcases Nat.eq_zero_or_pos c.tSettle with hz | hpos
  · refine ⟨e.leaveLatch c, if_neg (Nat.not_lt.2 hz.le), ?_⟩
    simpa only [hz, Nat.add_zero] using hgap
  · obtain ⟨f, hf, hsettle⟩ := Enc.sends_settle (under := under) (word := word) hpos
      (e := e.leaveLatch c) (if_pos hpos) rfl
    rw [emit_add]
    exact ⟨f, hf, hgap.trans hsettle⟩

end Sys2Proof.Machine
end

section
/-! The refinement (10_state R32, 42_protocol_encoder R102 to R108): a RENDER runs its lead-in, its encoder's frame and its
lead-out, every other word only its latency, and each run shows what the command-level answer says. -/

namespace Sys2Proof.Machine

variable {s t : State} {under : Option Nat} {k : Nat}

theorem State.noReset_after {j : Nat} (h : s.noReset (j + k)) (e : Enc) (hs : Handshake) : (s.after j e hs).noReset k := by
  intro p hp
  refine h p (List.mem_of_mem_drop (i := j) ?_)
  rwa [← List.take_drop]

/-! The frame. -/

/-- `ENC` in the first cycle of a frame (R108). -/
def State.frameStart (s : State) (under : Option Nat) : Enc :=
  if under = some 0 then { s.enc with phase := .latch, cnt := 0 }
  else .startPixel 0 (wireWordOf s.cfg s.bright (s.pix.read 0))

theorem State.startFrame_eq (hv : s.cfg.valid) (under : Option Nat) :
    s.startFrame under = .next ((s.setEnc (s.frameStart under)).setHs (.busy (.sending under))) := by
  by_cases hu : under = some 0
  · rw [State.frameStart, if_pos hu, hu, State.startFrame_zero]
  · rw [State.frameStart, if_neg hu, State.startFrame_pixel (Config.n_pos hv) hu]

theorem State.frameStart_phase_ne_idle : (s.frameStart under).phase ≠ .idle := by
  unfold State.frameStart
  split <;> exact fun h => nomatch h

theorem State.take_wireWords {m : Nat} (hm : m ≤ s.cfg.n) :
    s.wireWords.take m = (List.range' 0 m).map fun i => wireWordOf s.cfg s.bright (s.pix.read i) := by
  rw [State.wireWords, ← List.map_take, List.take_range, Nat.min_eq_left hm, List.range_eq_range']

/-- From its first cycle the encoder sends the frame of R102 and is then back in `IDLE`. -/
theorem State.frame_sends (hv : s.cfg.valid) (hu : underOk s.cfg under) :
    ∃ f, f.phase = .idle ∧
      Enc.Sends s.cfg under s.wireWord? (s.frameStart under)
        (frameWave s.cfg (s.wireWords.take (pixelsSent s.cfg under)))
        (emit true (dataLen s.cfg (pixelsSent s.cfg under)) ++ emit false (s.cfg.tLatch + s.cfg.tSettle)) f := by
  rw [frameWave, List.append_assoc, ← emit_add]
  by_cases hzero : under = some 0
  · subst hzero
    rw [State.frameStart, if_pos rfl]
    simpa [pixelsSent, waveData, frameBits, dataLen, emit] using
      Enc.sends_latch (e := { s.enc with phase := .latch, cnt := 0 }) hv rfl rfl
  · obtain ⟨e, hp, hc, hdata⟩ := Enc.sends_pixels hv hu
      (wire := fun i => wireWordOf s.cfg s.bright (s.pix.read i)) (word := s.wireWord?)
      (fun j hj => State.wireWord?_of_lt hj) (pixelsSent_pos (Config.n_pos hv) hzero) (Nat.zero_add _)
    obtain ⟨f, hf, hgap⟩ := Enc.sends_latch (under := under) (word := s.wireWord?) hv hp hc
    rw [State.frameStart, if_neg hzero, State.take_wireWords (pixelsSent_le hu)]
    exact ⟨f, hf, hdata.trans hgap⟩

theorem Enc.Sends.length_eq {c : Config} {word : Nat → Option WireWord} {e f : Enc} {d x : List Bool}
    (h : Enc.Sends c under word e d x f) : d.length = x.length := by
  induction h with
  | done e => rfl
  | edge busy clock rest ih => exact congrArg (· + 1) ih

/-! The machine around the encoder. -/

/-- The handshake at the end of a RENDER's frame: the lead-out, and then the response. -/
def State.leadOut (s : State) (under : Option Nat) : Handshake :=
  .countdown (.finishing · (renderAnswer s.cfg under)) (.resp (renderAnswer s.cfg under)) s.cfg.lEnd

theorem step_of_sending {e : Enc} (hv : s.cfg.valid) (hr : s.pins.rst = false) (hs : s.hs = .busy (.sending under))
    (hc : s.enc.clock s.cfg under s.wireWord? = .ok e) :
    step s = .next (s.after 1 e (if e.phase = .idle then s.leadOut under else .busy (.sending under))) := by
  rw [step_of_busy hv hr hs, State.busyEdge, State.sendEdge_of_ok hc]
  split
  · rw [endCycle_next, State.advance_eq_after]
    rfl
  · rw [endCycle_next, State.advance_eq_after, State.setEnc_hs, hs]
    rfl

/-- While a RENDER sends, the machine shows what its encoder sends. -/
theorem sending_run {c : Config} {word : Nat → Option WireWord} {e f : Enc} {d x : List Bool}
    (h : Enc.Sends c under word e d x f) (hf : f.phase = .idle) (he : e.phase ≠ .idle) (hv : s.cfg.valid)
    (hr : s.noReset d.length) (hs : s.hs = .busy (.sending under)) (henc : s.enc = e) (hcfg : s.cfg = c)
    (hword : s.wireWord? = word) : BusyRun d.length s (s.after d.length f (s.leadOut under)) d x := by
  induction h generalizing s with
  | done e => exact absurd hf he
  | @edge e e' f d x busy clock rest ih =>
    subst henc hcfg hword
    have hstep := step_of_sending hv (State.noReset_now hr) hs clock
    by_cases hidle : e'.phase = .idle
    · cases rest with
      | edge busy' _ _ => exact absurd hidle busy'
      | done _ =>
        rw [if_pos hidle] at hstep
        exact .cons hs hstep (.zero _)
    · rw [if_neg hidle] at hstep
      have hrest := ih (s := s.after 1 e' (.busy (.sending under))) hf hidle hv (State.noReset_step hr hstep) rfl rfl rfl rfl
      rw [State.after_after, Nat.add_comm 1] at hrest
      exact .cons hs hstep hrest

/-- What the encoder still sends, and the lead-out after it, to the response. -/
theorem sending_leadOut_run {f : Enc} {d x : List Bool} (h : Enc.Sends s.cfg under s.wireWord? s.enc d x f)
    (hf : f.phase = .idle) (he : s.enc.phase ≠ .idle) (hv : s.cfg.valid) (hr : s.noReset (d.length + s.cfg.lEnd))
    (hs : s.hs = .busy (.sending under)) :
    BusyRun (d.length + s.cfg.lEnd) s (s.after (d.length + s.cfg.lEnd) f (.resp (renderAnswer s.cfg under)))
      (d ++ emit false s.cfg.lEnd) (x ++ emit false s.cfg.lEnd) := by
  have hout := finishIn_run (s := s.after d.length f (s.leadOut under)) hv (State.noReset_after hr f (s.leadOut under)) rfl
  rw [State.after_after, State.dout, State.txActive, State.after_enc, Enc.dout_of_idle hf, Enc.txActive_of_idle hf] at hout
  exact (sending_run h hf he hv (State.noReset_left hr) hs rfl rfl rfl).append hout

/-- The edge that begins a lead-in of `k` cycles, and those cycles: low, and then the first cycle of the frame. -/
theorem leadIn_run (hv : s.cfg.valid) (hidle : s.enc.phase = .idle) (hr : s.noReset (k + 1)) (under : Option Nat) :
    ∃ t, endCycle (s.leadInFor k under) = .next t ∧
      BusyRun k t (s.after (k + 1) (s.frameStart under) (.busy (.sending under))) (emit false k) (emit false k) := by
  induction k generalizing s with
  | zero =>
    refine ⟨_, ?_, .zero _⟩
    rw [State.leadInFor_zero, State.startFrame_eq hv, endCycle_next, State.advance_eq_after]
    rfl
  | succ k ih =>
    set v := s.after 1 s.enc (.busy (.leadIn (k + 1) under)) with hdef
    have hrv : v.noReset (k + 1) := State.noReset_after (Nat.add_comm 1 (k + 1) ▸ hr) _ _
    obtain ⟨t, ht, hrun⟩ := ih (s := v) hv hidle hrv
    have hstep : step v = .next t := (step_of_busy (s := v) hv (State.noReset_now hrv) rfl).trans ht
    refine ⟨v, ?_, ?_⟩
    · rw [State.leadInFor_pos s (Nat.succ_pos k), endCycle_next, State.advance_eq_after]
      rfl
    · rw [hdef, State.after_after, Nat.add_comm 1, ← hdef] at hrun
      have hall := BusyRun.cons rfl hstep hrun
      rwa [State.dout, State.txActive, hdef, State.after_enc, Enc.dout_of_idle hidle, Enc.txActive_of_idle hidle] at hall

/-! The answer. -/

/-- From the edge that accepts it, the machine does with a word what this answer says, cycle by cycle. -/
def State.Answers (s : State) (a : Answer) : Prop :=
  ∃ t u, step s = .next t ∧ BusyRun a.busy t u a.wave a.tx ∧ u.hs = .resp a.word ∧ u.pix = a.pix ∧
    u.bright = a.bright ∧ u.enc.phase = .idle ∧ u.cfg = s.cfg

/-- A word with nothing to send is answered by its latency alone. -/
theorem State.answers_silent {pix : Memory} {b : BitVec 16} {r : ResponseWord} (hv : s.cfg.valid)
    (hidle : s.enc.phase = .idle) (hr : s.noReset (k + 1))
    (hstep : step s = .next (s.finishWith (silent pix b r k)).advance) : s.Answers (silent pix b r k) := by
  have hrun := finishIn_run (r := r) (s := (s.finishWith (silent pix b r k)).advance) hv (State.noReset_step hr hstep) rfl
  rw [State.dout, State.txActive, State.advance_enc, State.finishWith_enc, Enc.dout_of_idle hidle,
    Enc.txActive_of_idle hidle] at hrun
  exact ⟨_, _, hstep, hrun, rfl, rfl, rfl, hidle, rfl⟩

theorem renderWave_eq (c : Config) (ws : List WireWord) (under : Option Nat) :
    renderWave c ws under =
      emit false c.lStart ++ (frameWave c (ws.take (pixelsSent c under)) ++ emit false c.lEnd) :=
  List.append_assoc _ _ _

theorem renderTx_eq (c : Config) (under : Option Nat) :
    renderTx c under =
      emit false c.lStart ++ (emit true (dataLen c (pixelsSent c under)) ++ emit false (c.tLatch + c.tSettle) ++
        emit false c.lEnd) := by
  rw [renderTx, emit_add false (c.tLatch + c.tSettle), List.append_assoc, List.append_assoc]

/-- RENDER is answered by its lead-in, its frame and its lead-out. -/
theorem State.answers_render (hv : s.cfg.valid) (hidle : s.enc.phase = .idle)
    (hr : s.noReset (renderLen s.cfg s.oracle + 1))
    (hstep : step s = endCycle (s.leadInFor s.cfg.lStart s.oracle)) : s.Answers (s.executed .render) := by
  obtain ⟨f, hf, hsends⟩ := State.frame_sends hv (underOk_oracle s)
  have hlen : (frameWave s.cfg (s.wireWords.take (pixelsSent s.cfg s.oracle))).length =
      frameLen s.cfg (pixelsSent s.cfg s.oracle) := by
    rw [hsends.length_eq]
    simp [emit, frameLen, Nat.add_assoc]
  have hbusy : renderLen s.cfg s.oracle = s.cfg.lStart +
      ((frameWave s.cfg (s.wireWords.take (pixelsSent s.cfg s.oracle))).length + s.cfg.lEnd) := by
    rw [renderLen, hlen, Nat.add_assoc]
  rw [hbusy, Nat.add_right_comm] at hr
  obtain ⟨t, ht, hlead⟩ := leadIn_run hv hidle (State.noReset_left hr) s.oracle
  have hframe := sending_leadOut_run (s := s.after (s.cfg.lStart + 1) (s.frameStart s.oracle) (.busy (.sending s.oracle)))
    hsends hf State.frameStart_phase_ne_idle hv (State.noReset_after hr _ _) rfl
  have hrun := hlead.append hframe
  rw [State.after_cfg, ← hbusy, ← renderWave_eq, ← renderTx_eq] at hrun
  exact ⟨t, _, hstep.trans ht, hrun, rfl, rfl, rfl, hf, rfl⟩

/-- Only RENDER puts anything on the wire. -/
theorem State.answer_silent {w : CommandWord} (hd : decode w ≠ .ok .render) :
    ∃ pix b r n, s.answer w = silent pix b r n := by
  cases hw : decode w with
  | error e => exact ⟨_, _, _, _, State.answer_of_error hw⟩
  | ok i =>
    have hexec : ∃ pix b r n, s.executed i = silent pix b r n := by
      cases i with
      | render => exact absurd hw hd
      | set | fill | setbr | snap | setp | wheel => exact ⟨_, _, _, _, rfl⟩
    cases hi : indexOf i with
    | none => rwa [State.answer_of_noIndex hw hi]
    | some idx =>
      by_cases hlt : idx.toNat < s.cfg.n
      · rwa [State.answer_of_hit hw hi hlt]
      · exact ⟨_, _, _, _, State.answer_of_miss hw hi hlt⟩

/-- Every word is answered as the command level says. -/
theorem State.answers (hI : s.Inv) (ha : s.accepting) (hr : s.noReset ((s.answer s.pins.cmdData).busy + 1)) :
    s.Answers (s.answer s.pins.cmdData) := by
  have ⟨hv, _, hs, _⟩ := ha
  have hidle := (hI.encoderIdle (by simp [hs])).idle
  by_cases hd : decode s.pins.cmdData = .ok .render
  · rw [State.answer_of_noIndex hd rfl] at hr ⊢
    exact State.answers_render hv hidle hr (step_of_render ha hd)
  · have hstep := step_of_not_render ha hd
    obtain ⟨pix, b, r, n, hsilent⟩ := State.answer_silent (s := s) hd
    rw [hsilent] at hr hstep ⊢
    exact State.answers_silent hv hidle hr hstep

/-- Settles O46: `State.Answers`, its run taken apart into the traces of the four pins. -/
theorem cycleMachineRefinesTheCommands : Obligations.CycleMachineRefinesTheCommands := by
  intro s hI ha hr
  obtain ⟨t, u, hstep, hrun, hend⟩ := State.answers hI ha hr
  exact ⟨t, u, hstep, hrun.dout, hrun.txActive, hrun.cmdReady, hrun.rspValid, hrun.run, hend⟩

end Sys2Proof.Machine
end

section
/-! Pixel memory and brightness, command by command (20_memory R41 to R48): what a command does is said once by
`exec_eq_next`, what a word does to the two by `step_pix_bright`. -/

namespace Sys2Proof.Machine

variable {s t u : State} {i : Instr} {idx : Index}

/-! A cell written twice. -/

/-- Of two writes to one cell the later one counts. -/
theorem Memory.write_write {m : Memory} (hm : m.wf) (k : Nat) (v w : Colour) :
    (m.write k v).write k w = m.write k w := by
  refine Memory.ext_read (Memory.write_wf (Memory.write_wf hm k v) k w) (Memory.write_wf hm k w) fun j => ?_
  rw [Memory.read_write (Memory.write_wf hm k v), Memory.read_write hm, Memory.read_write hm]
  split <;> rfl

/-- Of two fills the later one counts. -/
theorem Memory.fill_fill {m : Memory} (hm : m.wf) (n : Nat) (v w : Colour) :
    (m.fill n v).fill n w = m.fill n w := by
  refine Memory.ext_read (Memory.fill_wf (Memory.fill_wf hm n v) n w) (Memory.fill_wf hm n w) fun j => ?_
  rw [Memory.read_fill (Memory.fill_wf hm n v), Memory.read_fill hm, Memory.read_fill hm]
  split <;> rfl

/-! What `exec` does, in the order of R73: the bound check, then the command's own rule. -/

theorem exec_of_miss (hi : indexOf i = some idx) (hge : s.cfg.n ≤ idx.toNat) :
    exec i s = .next (s.raise s.cfg.latency.outOfRange (.outOfRange idx)) := by
  cases i with
  | set => cases hi; exact (exec_set _ _ _).trans (withCell_of_le hge _)
  | snap => cases hi; exact (exec_snap _ _).trans (withCell_of_le hge _)
  | setp => cases hi; exact (exec_setp _ _ _ _).trans (withCell_of_le hge _)
  | fill | setbr | render | wheel => cases hi

theorem exec_of_hit (hne : i ≠ .render) (hhit : ∀ idx, indexOf i = some idx → idx.toNat < s.cfg.n) :
    exec i s = .next (s.finishWith (s.executed i)) := by
  cases i with
  | set idx => exact (exec_set _ _ _).trans (withCell_of_lt (hhit idx rfl) _)
  | snap idx => exact (exec_snap _ _).trans (withCell_of_lt (hhit idx rfl) _)
  | setp idx => exact (exec_setp _ _ _ _).trans (withCell_of_lt (hhit idx rfl) _)
  | fill | setbr | wheel => rfl
  | render => exact absurd rfl hne

/-- Everything a command can do: answer that its cell does not exist, begin a RENDER's lead-in, or do what its own rule
says. -/
theorem exec_eq_next (h : exec i s = .next t) :
    (∃ idx, indexOf i = some idx ∧ s.cfg.n ≤ idx.toNat ∧ t = s.raise s.cfg.latency.outOfRange (.outOfRange idx)) ∨
      (i = .render ∧ s.leadInFor s.cfg.lStart s.oracle = .next t) ∨
      (i ≠ .render ∧ (∀ idx, indexOf i = some idx → idx.toNat < s.cfg.n) ∧ t = s.finishWith (s.executed i)) := by
  by_cases hr : i = .render
  · subst hr
    exact .inr (.inl ⟨rfl, h⟩)
  · by_cases hhit : ∀ idx, indexOf i = some idx → idx.toNat < s.cfg.n
    · rw [exec_of_hit hr hhit] at h
      exact .inr (.inr ⟨hr, hhit, by simpa using h.symm⟩)
    · push Not at hhit
      obtain ⟨idx, hi, hge⟩ := hhit
      rw [exec_of_miss hi hge] at h
      exact .inl ⟨idx, hi, hge, by simpa using h.symm⟩

/-! The out-of-range answer (R46, R131). -/

@[simp] theorem statusOf_response (status : Status) (data : BitVec 24) :
    statusOf (response status data) = status.code :=
  BitVec.extractLsb'_append_eq_left

/-- No command that LPE carries out answers with an error at the accepting edge. -/
theorem State.executed_status (hne : i ≠ .render) : statusOf (s.executed i).word = Status.ok.code := by
  cases i with
  | set | fill | setbr | snap | setp | wheel => exact statusOf_response _ _
  | render => exact absurd rfl hne

theorem statusOf_renderAnswer_ne (c : Config) (under : Option Nat) : statusOf (renderAnswer c under) ≠ 0x01 := by
  cases under with
  | none => rw [renderAnswer, statusOf_response]; decide
  | some k =>
    rw [renderAnswer, Error.response, statusOf_response]
    exact (by decide : Status.timingViolation.code ≠ 0x01)

/-- A lead-in gives no response yet. -/
theorem State.leadInFor_hs_ne_finishing {k left : Nat} {under : Option Nat} {r : ResponseWord}
    (h : s.leadInFor k under = .next t) : t.hs ≠ .busy (.finishing left r) := by
  rcases State.leadInFor_eq_next h with ⟨-, rfl⟩ | ⟨-, h⟩
  · simp
  · obtain ⟨e, rfl, -⟩ := State.startFrame_eq_next h
    simp

/-- The response behind a latency is the one the command was finished with. -/
theorem State.finishIn_hs_finishing {k left : Nat} {r r' : ResponseWord}
    (h : (s.finishIn k r).hs = .busy (.finishing left r')) : r' = r := by
  rw [State.finishIn_hs] at h
  split at h
  · cases h
  · cases h
    rfl

/-- A command that names no cell never answers that one is out of range. -/
theorem exec_status_ne_outOfRange {left : Nat} {r : ResponseWord} (hi : indexOf i = none) (h : exec i s = .next t)
    (hs : t.hs = .busy (.finishing left r)) : statusOf r ≠ 0x01 := by
  rcases exec_eq_next h with ⟨idx, hidx, -⟩ | ⟨-, hlead⟩ | ⟨hne, -, rfl⟩
  · simp [hi] at hidx
  · exact absurd hs (State.leadInFor_hs_ne_finishing hlead)
  · rw [State.finishIn_hs_finishing hs, State.executed_status hne]
    decide

/-- Settles O18: `exec_of_miss` with a latency of at least one cycle; a 16-bit index is below 65536; and the status of
every other answer is another one. -/
theorem outOfRangeIsAnsweredAndChangesNothing : Obligations.OutOfRangeIsAnsweredAndChangesNothing := by
  refine ⟨fun s i idx hv hi hge => ?_, fun s idx hn => ?_, fun _ _ _ _ _ => exec_status_ne_outOfRange,
    statusOf_renderAnswer_ne⟩
  · obtain ⟨-, -, -, -, -, -, hlat, -⟩ := Config.latency_valid hv
    rw [exec_of_miss hi hge, State.raise, State.finishIn_pos s _ hlat]
    rfl
  · exact (s.inRange_iff idx).2 (hn ▸ idx.isLt)

/-! What a command leaves unchanged. -/

/-- A command that stores one cell leaves every other cell and everything but `PIX` and `HS`. -/
theorem storeCell_frame {v : Colour} {k : Nat} (hm : s.pix.wf)
    (h : withCell s idx (fun j => (s.setCell j v).respond k .ok 0) = .next t) :
    (∀ j, j ≠ indexValue idx → t.pix.read j = s.pix.read j) ∧
      t.bright = s.bright ∧ t.enc = s.enc ∧ t.cfg = s.cfg ∧ t.inputs = s.inputs ∧ t.cycle = s.cycle := by
  rcases withCell_eq_next h with ⟨-, rfl⟩ | ⟨-, rfl⟩
  · exact ⟨fun j hj => (Memory.read_write hm _ j v).trans (if_neg hj), rfl, rfl, rfl, rfl, rfl⟩
  · exact ⟨fun _ _ => rfl, rfl, rfl, rfl, rfl, rfl⟩

/-- Settles O26: SET and SETP are `storeCell_frame`; a cell that is not below N is none of those a FILL writes. -/
theorem frameOfStoringCommands : Obligations.FrameOfStoringCommands := by
  refine fun s t hm => ⟨fun _ _ => storeCell_frame hm, fun _ _ _ => storeCell_frame hm, fun rgb h => ?_⟩
  obtain rfl : (s.setPix (s.pix.fill s.cfg.n rgb)).respond s.cfg.latency.fill .ok 0 = t := by
    simpa [exec_fill] using h
  exact ⟨fun j hj => (Memory.read_fill hm _ j rgb).trans (if_neg (Nat.not_lt.2 hj)), rfl, rfl, rfl, rfl, rfl⟩

/-- `PIX` changes by a SET, a SETP or a FILL only. -/
theorem exec_pix_cases (h : exec i s = .next t) :
    t.pix = s.pix ∨ (∃ idx rgb, i = .set idx rgb) ∨ (∃ idx rgb pct, i = .setp idx rgb pct) ∨ ∃ rgb, i = .fill rgb := by
  rcases exec_eq_next h with ⟨idx, -, -, rfl⟩ | ⟨-, hlead⟩ | ⟨-, -, rfl⟩
  · exact .inl rfl
  · obtain ⟨-, -, -, hpix, -⟩ := State.leadInFor_keeps hlead
    exact .inl hpix
  · cases i with
    | set idx rgb => exact .inr (.inl ⟨idx, rgb, rfl⟩)
    | setp idx rgb pct => exact .inr (.inr (.inl ⟨idx, rgb, pct, rfl⟩))
    | fill rgb => exact .inr (.inr (.inr ⟨rgb, rfl⟩))
    | setbr | snap | render | wheel => exact .inl rfl

/-- `BRIGHT` changes by the SETBR of its new value only. -/
theorem exec_bright_cases (h : exec i s = .next t) : t.bright = s.bright ∨ i = .setbr t.bright := by
  rcases exec_eq_next h with ⟨idx, -, -, rfl⟩ | ⟨-, hlead⟩ | ⟨-, -, rfl⟩
  · exact .inl rfl
  · obtain ⟨-, -, -, -, hbright⟩ := State.leadInFor_keeps hlead
    exact .inl hbright
  · cases i with
    | setbr aux => exact .inr rfl
    | set | fill | snap | setp | render | wheel => exact .inl rfl

/-- Only a RENDER touches the encoder. -/
theorem exec_enc (h : exec i s = .next t) (hne : i ≠ .render) : t.enc = s.enc := by
  rcases exec_eq_next h with ⟨idx, -, -, rfl⟩ | ⟨hr, -⟩ | ⟨-, -, rfl⟩
  · rfl
  · exact absurd hr hne
  · rfl

/-- Settles O27: none of the four is a command by which `exec_pix_cases` lets `PIX` change, and `exec_bright_cases`,
`exec_enc` and `exec_keeps` say the rest. -/
theorem frameOfOtherCommands : Obligations.FrameOfOtherCommands := by
  intro s t i hi h
  have hpix : t.pix = s.pix :=
    (exec_pix_cases h).resolve_right (by rcases hi with ⟨aux, rfl⟩ | ⟨idx, rfl⟩ | ⟨pos, rfl⟩ | rfl <;> simp)
  obtain ⟨hcfg, hinputs, hcycle⟩ := exec_keeps h
  exact ⟨fun j => hpix ▸ rfl, hpix, hcfg, hinputs, hcycle, fun hne => (exec_bright_cases h).resolve_right (hne _),
    exec_enc h⟩

/-! What a step changes. -/

/-- With no reset, a step changes `PIX` and `BRIGHT` only as the command it accepts does. -/
theorem step_pix_bright (hr : s.pins.rst = false) (h : step s = .next t) :
    (t.pix = s.pix ∧ t.bright = s.bright) ∨
      (s.accepting ∧ ∃ i u, decode s.pins.cmdData = .ok i ∧ exec i s = .next u ∧ t = u.advance) := by
  obtain ⟨hv, ⟨hr', -⟩ | ⟨-, ⟨-, -, rfl⟩ | ⟨hs, hc, ⟨e, -, rfl⟩ | hexec⟩ | ⟨w, u, -, hu, rfl⟩ | ⟨r, -, -, rfl⟩ |
    ⟨r, -, -, rfl⟩⟩⟩ := step_eq_next h
  · simp [hr] at hr'
  · exact .inl ⟨rfl, rfl⟩
  · exact .inl ⟨rfl, rfl⟩
  · exact .inr ⟨⟨hv, hr, hs, hc⟩, hexec⟩
  · obtain ⟨-, -, -, hpix, hbright⟩ := State.busyEdge_keeps hu
    exact .inl ⟨hpix, hbright⟩
  · exact .inl ⟨rfl, rfl⟩
  · exact .inl ⟨rfl, rfl⟩

/-- Settles O28: a change is the accepted command's (`step_pix_bright`), and `exec_pix_cases` and `exec_bright_cases`
say which command that is. -/
theorem pixelsAndBrightnessChangeOnlyByTheirCommands : Obligations.PixelsAndBrightnessChangeOnlyByTheirCommands := by
  intro s t hr h
  rcases step_pix_bright hr h with ⟨hpix, hbright⟩ | ⟨ha, i, u, hd, hu, rfl⟩
  · exact ⟨fun hne => absurd hpix hne, fun hne => absurd hbright hne⟩
  · rw [hd]
    refine ⟨fun hne => ⟨ha, ?_⟩, fun hne => ⟨ha, congrArg _ ((exec_bright_cases hu).resolve_left hne)⟩⟩
    simpa using (exec_pix_cases hu).resolve_left hne

/-! A command executed twice (R48). -/

/-- A command's own rule, applied where it has just been applied, leaves `PIX` and `BRIGHT` as they are. -/
theorem State.executed_finishWith (hm : s.pix.wf) (i : Instr) :
    ((s.finishWith (s.executed i)).executed i).pix = (s.executed i).pix ∧
      ((s.finishWith (s.executed i)).executed i).bright = (s.executed i).bright := by
  cases i with
  | set | setp => exact ⟨Memory.write_write hm _ _ _, rfl⟩
  | fill rgb => exact ⟨Memory.fill_fill hm _ _ _, rfl⟩
  | setbr | snap | render | wheel => exact ⟨rfl, rfl⟩

/-- Settles O29: where the second execution writes at all, its cell exists, so it existed for the first one too, and
`State.executed_finishWith` says that the second writes what is there. -/
theorem writesAreIdempotent : Obligations.WritesAreIdempotent := by
  intro s t u i hm ht hu
  obtain ⟨hcfg, -, -⟩ := exec_keeps ht
  rcases exec_eq_next hu with ⟨idx, -, -, rfl⟩ | ⟨-, hlead⟩ | ⟨hne, hhit, rfl⟩
  · exact ⟨rfl, rfl⟩
  · obtain ⟨-, -, -, hkeeps⟩ := State.leadInFor_keeps hlead
    exact hkeeps
  · rw [hcfg] at hhit
    rw [exec_of_hit hne hhit] at ht
    obtain rfl : s.finishWith (s.executed i) = t := by simpa using ht
    exact State.executed_finishWith hm i

end Sys2Proof.Machine
end

section
/-! The decoder against the tables of R62 and R64: a word decodes to a command iff it is the command's word, and it is
refused iff its fields fail the checks of the format table; a row's mask and match pattern ask for the row's `op` and for
zero in every field the format reserves. -/

namespace Sys2Proof

variable {f : Fields} {fmt : Format} {e : Illegal} {i : Instr} {w : CommandWord} {r : OpcodeRow}

/-! The formats (R62, R65). -/

/-- The known operation codes with their formats. -/
theorem opFormat_eq_some_iff {op : BitVec 8} :
    opFormat op = some fmt ↔
      op = 0x01 ∧ fmt = .ic ∨ op = 0x02 ∧ fmt = .c ∨ op = 0x03 ∧ fmt = .a ∨ op = 0x04 ∧ fmt = .i ∨
        op = 0x05 ∧ fmt = .aic ∨ op = 0x06 ∧ fmt = .z ∨ op = 0x07 ∧ fmt = .a := by
  constructor
  · intro h
    unfold opFormat at h
    split_ifs at h <;> simp_all
  · rintro (⟨rfl, rfl⟩ | ⟨rfl, rfl⟩ | ⟨rfl, rfl⟩ | ⟨rfl, rfl⟩ | ⟨rfl, rfl⟩ | ⟨rfl, rfl⟩ | ⟨rfl, rfl⟩) <;> rfl

/-- Every field the format reserves is zero. -/
def Format.ReservedZero (fmt : Format) (f : Fields) : Prop :=
  (fmt.usesAux = false → f.aux = 0) ∧ (fmt.usesIdx = false → f.idx = 0) ∧ (fmt.usesRgb = false → f.rgb = 0)

theorem Fields.check_of_unknown (h : opFormat f.op = none) : f.check = .error .unknownOp := by
  simp only [Fields.check, h]

theorem Fields.check_of_reservedZero (h : opFormat f.op = some fmt) (hz : fmt.ReservedZero f) : f.check = .ok fmt := by
  obtain ⟨haux, hidx, hrgb⟩ := hz
  simp only [Fields.check, h]
  rw [if_neg fun hne => hne.2 (haux hne.1), if_neg fun hne => hne.2 (hidx hne.1), if_neg fun hne => hne.2 (hrgb hne.1)]

/-- A known `op` with a nonzero reserved field is refused, and not for its `op`. -/
theorem Fields.check_of_not_reservedZero (h : opFormat f.op = some fmt) (hz : ¬ fmt.ReservedZero f) :
    ∃ e, f.check = .error e ∧ e ≠ .unknownOp := by
  simp only [Fields.check, h]
  split_ifs with haux hidx hrgb
  · exact ⟨.reservedAux, rfl, by simp⟩
  · exact ⟨.reservedIdx, rfl, by simp⟩
  · exact ⟨.reservedRgb, rfl, by simp⟩
  · refine absurd ⟨?_, ?_, ?_⟩ hz <;> tauto

theorem Fields.check_eq_ok_iff : f.check = .ok fmt ↔ opFormat f.op = some fmt ∧ fmt.ReservedZero f := by
  refine ⟨fun h => ?_, fun ⟨h, hz⟩ => Fields.check_of_reservedZero h hz⟩
  cases hop : opFormat f.op with
  | none => simp [Fields.check_of_unknown hop] at h
  | some fmt' =>
    by_cases hz : fmt'.ReservedZero f
    · obtain rfl : fmt' = fmt := by simpa [Fields.check_of_reservedZero hop hz] using h
      exact ⟨rfl, hz⟩
    · obtain ⟨e, he, -⟩ := Fields.check_of_not_reservedZero hop hz
      simp [he] at h

/-- The fields of a command pass the checks. -/
theorem Instr.check_fields (i : Instr) : ∃ fmt, i.fields.check = .ok fmt := by
  have hwf : i.fields.wellFormed = true := by
    cases i with
    | set => exact Laws.FieldsWf.set _ _
    | fill => exact Laws.FieldsWf.fill _
    | setbr => exact Laws.FieldsWf.setbr _
    | snap => exact Laws.FieldsWf.snap _
    | setp => exact Laws.FieldsWf.setp _ _ _
    | render => exact Laws.FieldsWf.render
    | wheel => exact Laws.FieldsWf.wheel _
  unfold Fields.wellFormed at hwf
  split at hwf
  · exact ⟨_, ‹_›⟩
  · cases hwf

/-! Decoding and encoding (R60 to R65, R71). -/

/-- What the decoder looks at for one field: nothing where the format uses it. -/
def reservedField {n : Nat} (used : Bool) (x : BitVec n) (why : Illegal) : List (Bool × Illegal) :=
  if used then [] else [(x == 0, why)]

theorem orReserved_reservedField {n : Nat} (used : Bool) (x : BitVec n) (why : Illegal) (rest : List (Bool × Illegal))
    (i : Instr) :
    orReserved (reservedField used x why ++ rest) i =
      if used = false ∧ x ≠ 0 then .error why else orReserved rest i := by
  cases used with
  | true => rfl
  | false => by_cases hx : x = 0 <;> simp [reservedField, orReserved, ↓hx]

/-- The fields a format reserves, as the decoder lists them. -/
def Format.reserved (fmt : Format) (f : Fields) : List (Bool × Illegal) :=
  reservedField fmt.usesAux f.aux .reservedAux ++ (reservedField fmt.usesIdx f.idx .reservedIdx ++
    (reservedField fmt.usesRgb f.rgb .reservedRgb ++ []))

theorem decodeFields_of_unknown (h : opFormat f.op = none) : decodeFields f = .error .unknownOp := by
  unfold opFormat at h
  split_ifs at h with h1 h2 h3 h4 h5 h6 h7
  simp only [decodeFields, if_neg h1, if_neg h2, if_neg h3, if_neg h4, if_neg h5, if_neg h6, if_neg h7]

/-- The decoder of a known `op` looks at the fields its format reserves. -/
theorem decodeFields_of_known (h : opFormat f.op = some fmt) : ∃ i, decodeFields f = orReserved (fmt.reserved f) i := by
  obtain ⟨op, aux, idx, rgb⟩ := f
  rcases opFormat_eq_some_iff.1 h with ⟨rfl, rfl⟩ | ⟨rfl, rfl⟩ | ⟨rfl, rfl⟩ | ⟨rfl, rfl⟩ | ⟨rfl, rfl⟩ | ⟨rfl, rfl⟩ |
    ⟨rfl, rfl⟩ <;> exact ⟨_, rfl⟩

/-- So do the checks of the format table. -/
theorem Fields.check_of_known (h : opFormat f.op = some fmt) (i : Instr) :
    f.check = (orReserved (fmt.reserved f) i).map fun _ => fmt := by
  simp only [Fields.check, h, Format.reserved, orReserved_reservedField, apply_ite (Except.map _)]
  rfl

/-- The decoder refuses fields exactly when the format table does, for the same reason. -/
theorem decodeFields_eq_error_iff : decodeFields f = .error e ↔ f.check = .error e := by
  cases hop : opFormat f.op with
  | none => rw [decodeFields_of_unknown hop, Fields.check_of_unknown hop]; simp
  | some fmt =>
    obtain ⟨i, hi⟩ := decodeFields_of_known hop
    rw [hi, Fields.check_of_known hop i]
    cases orReserved (fmt.reserved f) i <;> simp [Except.map]

theorem decodeFields_fields (i : Instr) : decodeFields i.fields = .ok i := by
  cases i with
  | set | fill | setbr | snap | setp | render | wheel => rfl

theorem fields_of_decodeFields (h : decodeFields f = .ok i) : i.fields = f := by
  obtain ⟨op, aux, idx, rgb⟩ := f
  unfold decodeFields at h
  split_ifs at h <;>
  · obtain ⟨hz, rfl⟩ := orReserved_eq_ok h
    simp_all [Instr.fields]

theorem decode_eq_ok_iff_fields : decode w = .ok i ↔ i.fields = fieldsOf w :=
  ⟨fields_of_decodeFields, fun h => (congrArg decodeFields h.symm).trans (decodeFields_fields i)⟩

/-- A word decodes to a command iff it is the command's word. -/
theorem decode_eq_ok_iff : decode w = .ok i ↔ encode i = w := by
  rw [decode_eq_ok_iff_fields, encode]
  constructor
  · intro h
    rw [h, word_fieldsOf]
  · rintro rfl
    rw [fieldsOf_word]

theorem decode_eq_error_iff : decode w = .error e ↔ (fieldsOf w).check = .error e :=
  decodeFields_eq_error_iff

/-- A word whose fields pass the checks is a command's. -/
theorem decode_of_check (h : (fieldsOf w).check = .ok fmt) : ∃ i, decode w = .ok i := by
  cases hd : decode w with
  | ok i => exact ⟨i, rfl⟩
  | error e => simp [decode_eq_error_iff.1 hd] at h

/-- Settles O2: a command's word is the word of that command. -/
theorem decodeOfEncodeIsTheCommand : Obligations.DecodeOfEncodeIsTheCommand :=
  fun _ => decode_eq_ok_iff.2 rfl

/-- Settles O3, the other direction of `decode_eq_ok_iff`. -/
theorem encodeOfDecodeIsTheWord : Obligations.EncodeOfDecodeIsTheWord :=
  fun _ _ => decode_eq_ok_iff.1

/-- Settles O5, by the reserved fields of each known `op`. -/
theorem decoderAgreesWithTheFormats : Obligations.DecoderAgreesWithTheFormats :=
  fun _ _ => decode_eq_error_iff

/-- Settles O7: each of the twelve words, decoded. -/
theorem specWordsDecodeAsTheSpecSays : Obligations.SpecWordsDecodeAsTheSpecSays := by
  unfold Obligations.SpecWordsDecodeAsTheSpecSays
  decide

/-! The opcode table (R64): each row follows from its `op` and its format. -/

/-- The row a format gives an `op`: the mask covers `op` and the reserved fields, the pattern is `op` with zeros. -/
def Format.row (fmt : Format) (mnemonic : String) (op : BitVec 8) : OpcodeRow where
  mnemonic := mnemonic
  pattern := Fields.word ⟨op, 0, 0, 0⟩
  mask := Fields.word
    ⟨.allOnes 8, if fmt.usesAux then 0 else .allOnes 16, if fmt.usesIdx then 0 else .allOnes 16,
      if fmt.usesRgb then 0 else .allOnes 24⟩

/-- The `op` of a row. -/
def OpcodeRow.op (r : OpcodeRow) : BitVec 8 := (fieldsOf r.pattern).op

theorem Fields.word_inj {f g : Fields} : f.word = g.word ↔ f = g :=
  ⟨fun h => by rw [← fieldsOf_word f, h, fieldsOf_word], congrArg _⟩

theorem Fields.word_and_word (f g : Fields) :
    f.word &&& g.word = Fields.word ⟨f.op &&& g.op, f.aux &&& g.aux, f.idx &&& g.idx, f.rgb &&& g.rgb⟩ := by
  refine BitVec.and_append.trans ?_
  rw [BitVec.and_append, BitVec.and_append]
  rfl

theorem and_reservedMask_eq_zero_iff {n : Nat} (x : BitVec n) (used : Bool) :
    x &&& (if used then 0 else .allOnes n) = 0 ↔ (used = false → x = 0) := by
  cases used <;> simp

theorem Format.row_matches_iff (fmt : Format) (mnemonic : String) (op : BitVec 8) (w : CommandWord) :
    (fmt.row mnemonic op).matches w = true ↔ (fieldsOf w).op = op ∧ fmt.ReservedZero (fieldsOf w) := by
  rw [OpcodeRow.matches, beq_iff_eq, ← word_fieldsOf w, fieldsOf_word, Format.row, Fields.word_and_word, Fields.word_inj,
    Fields.mk.injEq, BitVec.and_allOnes]
  simp only [and_reservedMask_eq_zero_iff, Format.ReservedZero]

theorem row_of_mem_opcodeTable : ∀ r ∈ opcodeTable, ∃ fmt, opFormat r.op = some fmt ∧ r = fmt.row r.mnemonic r.op := by
  simp only [opcodeTable, List.forall_mem_cons]
  exact ⟨⟨.ic, rfl, rfl⟩, ⟨.c, rfl, rfl⟩, ⟨.a, rfl, rfl⟩, ⟨.i, rfl, rfl⟩, ⟨.aic, rfl, rfl⟩, ⟨.z, rfl, rfl⟩, ⟨.a, rfl, rfl⟩,
    by simp⟩

/-- A row's mask and match pattern ask for the row's `op` and for fields that pass the checks. -/
theorem matches_iff_check (hr : r ∈ opcodeTable) :
    r.matches w = true ↔ (fieldsOf w).op = r.op ∧ ∃ fmt, (fieldsOf w).check = .ok fmt := by
  obtain ⟨fmt, hfmt, hrow⟩ := row_of_mem_opcodeTable r hr
  rw [hrow, Format.row_matches_iff, ← hrow]
  refine and_congr_right fun hop => ?_
  simp [Fields.check_eq_ok_iff, hop, hfmt]

/-- A command has a row's mnemonic iff it has the row's `op`. -/
theorem mnemonic_eq_iff_op (i : Instr) : ∀ r ∈ opcodeTable, i.mnemonic = r.mnemonic ↔ i.fields.op = r.op := by
  cases i with
  | set | fill | setbr | snap | setp | render | wheel =>
    dsimp only [Instr.mnemonic, Instr.fields]
    decide

theorem matches_iff_decode (hr : r ∈ opcodeTable) :
    r.matches w = true ↔ ∃ i, decode w = .ok i ∧ i.mnemonic = r.mnemonic := by
  simp only [matches_iff_check hr, mnemonic_eq_iff_op _ r hr]
  constructor
  · rintro ⟨hop, fmt, hcheck⟩
    obtain ⟨i, hi⟩ := decode_of_check hcheck
    exact ⟨i, hi, (congrArg Fields.op (decode_eq_ok_iff_fields.1 hi)).trans hop⟩
  · rintro ⟨i, hi, hop⟩
    rw [← decode_eq_ok_iff_fields.1 hi]
    exact ⟨hop, i.check_fields⟩

/-- Settles O4: `matches_iff_decode`, and no two rows have one mnemonic. -/
theorem decoderFollowsTheOpcodeTable : Obligations.DecoderFollowsTheOpcodeTable := by
  refine ⟨fun w r hr => matches_iff_decode hr, ?_⟩
  have hdistinct : opcodeTable.Pairwise fun r r' => r.mnemonic ≠ r'.mnemonic := by decide
  refine hdistinct.imp_of_mem fun hr hr' hne w ⟨hw, hw'⟩ => ?_
  obtain ⟨i, hi, hmn⟩ := (matches_iff_decode hr).1 hw
  obtain ⟨j, hj, hmn'⟩ := (matches_iff_decode hr').1 hw'
  obtain rfl : i = j := by simpa using hi.symm.trans hj
  exact hne (hmn.symm.trans hmn')

theorem opFormat_isSome_iff (op : BitVec 8) : (∃ fmt, opFormat op = some fmt) ↔ 1 ≤ op.toNat ∧ op.toNat ≤ 7 := by
  constructor
  · rintro ⟨fmt, h⟩
    rcases opFormat_eq_some_iff.1 h with ⟨rfl, -⟩ | ⟨rfl, -⟩ | ⟨rfl, -⟩ | ⟨rfl, -⟩ | ⟨rfl, -⟩ | ⟨rfl, -⟩ | ⟨rfl, -⟩ <;>
      decide
  · rintro ⟨h1, h7⟩
    have hop : op = 1 ∨ op = 2 ∨ op = 3 ∨ op = 4 ∨ op = 5 ∨ op = 6 ∨ op = 7 := by bv_omega
    rcases hop with rfl | rfl | rfl | rfl | rfl | rfl | rfl <;> exact ⟨_, rfl⟩

/-- Settles O6: the checks refuse the fields, and no row matches a word that does not decode. -/
theorem reservedFieldsMustBeZero : Obligations.ReservedFieldsMustBeZero := by
  refine ⟨opFormat_isSome_iff, fun w fmt hfmt hreserved => ?_⟩
  obtain ⟨e, he, hne⟩ := Fields.check_of_not_reservedZero hfmt
    (by unfold Format.ReservedZero; tauto)
  refine ⟨fun r hr => ?_, e, decode_eq_error_iff.2 he, hne⟩
  rw [Bool.eq_false_iff, ne_eq, matches_iff_check hr]
  simp [he]

end Sys2Proof
end

section
/-! Words as numbers (30_encoding R61, R63, R66, R71): a word of fields laid side by side is a sum, and a signed operand is
read back from its 16 bits. -/

namespace Sys2Proof

/-- The low part of two fields side by side counts units, the high part units of `2 ^ n`. -/
theorem toNat_append_eq_add {m n : Nat} (x : BitVec m) (y : BitVec n) : (x ++ y).toNat = x.toNat * 2 ^ n + y.toNat := by
  rw [BitVec.toNat_append, ← Nat.shiftLeft_add_eq_or_of_lt y.isLt, Nat.shiftLeft_eq]

theorem Fields.word_toNat (f : Fields) :
    f.word.toNat = f.op.toNat * 2 ^ 56 + f.aux.toNat * 2 ^ 40 + f.idx.toNat * 2 ^ 24 + f.rgb.toNat := by
  have hsum : f.word.toNat = ((f.op.toNat * 2 ^ 16 + f.aux.toNat) * 2 ^ 16 + f.idx.toNat) * 2 ^ 24 + f.rgb.toNat :=
    (toNat_append_eq_add (f.op ++ f.aux ++ f.idx) f.rgb).trans (by rw [toNat_append_eq_add, toNat_append_eq_add])
  rw [hsum]
  ring

/-- Settles O1: a field of bits `s + m - 1` to `s` is the word's number divided by `2 ^ s`, modulo `2 ^ m`. -/
theorem commandFieldsStandAtTheSamePlace : Obligations.CommandFieldsStandAtTheSamePlace := by
  intro w
  have hw : w.toNat < 2 ^ 64 := w.isLt
  simp only [fieldsOf, red, green, blue, BitVec.extractLsb'_toNat, Nat.shiftRight_eq_div_pow]
  refine ⟨?_, trivial, trivial, ?_, ?_, ?_, ?_⟩ <;> omega

/-! Signed operands. -/

theorem sint16_eq_toInt (v : BitVec 16) : sint16 v = v.toInt := by
  rw [sint16, BitVec.toInt_eq_toNat_cond]
  split <;> split <;> omega

/-- An integer that 16 bits can hold is the signed value of its residue modulo 65536. -/
theorem sint16_ofNat_emod {v : Int} (hlo : -32768 ≤ v) (hhi : v ≤ 32767) :
    sint16 (BitVec.ofNat 16 (v % 65536).toNat) = v := by
  have hnat : (BitVec.ofNat 16 (v % 65536).toNat).toNat = (v % 65536).toNat := by
    rw [BitVec.toNat_ofNat]
    omega
  rw [sint16, hnat]
  split <;> omega

namespace Machine

/-- Settles O8: the model's readings of `idx` and `aux` are `BitVec`'s own, and 16 bits bound them. -/
theorem operandsAreExtendedAsTheSpecSays : Obligations.OperandsAreExtendedAsTheSpecSays := by
  refine ⟨fun idx => ⟨rfl, Nat.le_of_lt_succ idx.isLt⟩, fun aux => ?_⟩
  refine ⟨sint16_eq_toInt aux, sint16_eq_toInt aux, ?_⟩
  rw [sint16]
  split <;> omega

theorem response_toNat (status : Status) (data : BitVec 24) :
    (response status data).toNat = status.code.toNat * 2 ^ 24 + data.toNat :=
  toNat_append_eq_add _ _

@[simp] theorem dataOf_response (status : Status) (data : BitVec 24) : dataOf (response status data) = data :=
  BitVec.extractLsb'_append_eq_right

/-- Settles O9: the codes as they stand, and a response word's two parts side by side. -/
theorem responseWordLayout : Obligations.ResponseWordLayout :=
  ⟨⟨rfl, rfl, rfl, rfl⟩, fun status data =>
    ⟨response_toNat status data, statusOf_response status data, dataOf_response status data⟩⟩

/-! The assembler (R71). -/

theorem assembleSigned_eq {v : Int} (hlo : -32768 ≤ v) (hhi : v ≤ 32767) :
    assembleSigned v = some (BitVec.ofNat 16 (v % 65536).toNat) :=
  if_pos ⟨hlo, hhi⟩

/-- A factor that is `k / 256` assembles to `k` modulo 65536. -/
theorem FactorArg.assemble_fraction {mantissa k : Int} {decimals : Nat} (h : mantissa * 256 = k * 10 ^ decimals) :
    (FactorArg.fraction mantissa decimals).assemble = some (BitVec.ofNat 16 (k % 65536).toNat) := by
  have hpow : (10 : Int) ^ decimals ≠ 0 := pow_ne_zero _ (by decide)
  rw [FactorArg.assemble, h, Int.mul_emod_left, if_pos rfl, Int.mul_ediv_cancel k hpow]

/-- Settles O10: the sum of a command's fields, those it reserves being zero; and an operand or a factor times 256 that 16
bits can hold is what `sint16` reads back. -/
theorem assembledWordsFollowTheTable : Obligations.AssembledWordsFollowTheTable := by
  refine ⟨fun idx rgb aux => ?_, fun v hlo hhi => ?_, fun mantissa k decimals h hlo hhi => ?_⟩
  · simp [encode, Fields.word_toNat, Instr.fields]
  · exact ⟨_, assembleSigned_eq hlo hhi, sint16_ofNat_emod hlo hhi⟩
  · exact ⟨_, FactorArg.assemble_fraction h, sint16_ofNat_emod hlo hhi⟩

/-! Pseudo-instructions (R72). -/

/-- The index before `i`, as a number: the wrap-around fits the 16-bit field. -/
theorem previousIndex_toNat {n : Nat} (i : Index) (hpos : 1 ≤ n) (hle : n ≤ 65536) :
    (previousIndex n i).toNat = (i.toNat + n - 1) % n := by
  have hlt : (i.toNat + n - 1) % n < n := Nat.mod_lt _ hpos
  rw [previousIndex, BitVec.toNat_ofNat]
  omega

/-- Settles O11: the expansions as they stand, and `(i - 1) mod N` by whether it wraps. -/
theorem pseudoInstructionsExpandAsTheSpecSays : Obligations.PseudoInstructionsExpandAsTheSpecSays := by
  refine ⟨fun _ _ _ _ _ => ⟨rfl, rfl, rfl, rfl⟩, fun n i hpos hle hlt => ?_⟩
  rw [previousIndex_toNat i hpos hle]
  refine ⟨Nat.mod_lt _ hpos, fun hi => ?_, fun hi => ?_⟩
  · have hi' : i.toNat = 0 := congrArg BitVec.toNat hi
    rw [hi', Nat.zero_add]
    exact Nat.mod_eq_of_lt (Nat.sub_lt hpos Nat.one_pos)
  · have hi' : 1 ≤ i.toNat := Nat.one_le_iff_ne_zero.2 fun h0 => hi (BitVec.eq_of_toNat_eq h0)
    rw [Nat.sub_add_comm hi', Nat.add_mod_right]
    exact Nat.mod_eq_of_lt ((Nat.sub_le _ _).trans_lt hlt)

end Machine

end Sys2Proof
end

section
/-! Nothing stops a state of the invariant (30_encoding R68, 60_exceptions R132, R138, R139): whatever the edge is, it has a
next state. -/

namespace Sys2Proof.Machine

variable {s : State} {w : Work}

theorem State.leadInFor_next (hv : s.cfg.valid) (k : Nat) (under : Option Nat) : ∃ t, s.leadInFor k under = .next t := by
  rcases Nat.eq_zero_or_pos k with rfl | hk
  · exact ⟨_, State.startFrame_eq hv under⟩
  · exact ⟨_, State.leadInFor_pos s hk under⟩

theorem State.Inv.sendEdge_next {under : Option Nat} (hI : s.Inv) (hs : s.hs = .busy (.sending under)) :
    ∃ t, s.sendEdge under = .next t := by
  obtain ⟨hu, hsend⟩ := hI.sendingOk hs
  obtain ⟨hv, -⟩ := hI
  obtain ⟨e, hclock, -⟩ := Enc.clock_sendingOk hv hu hsend
  rw [State.sendEdge_of_ok hclock]
  split
  · exact ⟨_, rfl⟩
  · exact ⟨_, rfl⟩

theorem State.Inv.busyEdge_next (hI : s.Inv) (hs : s.hs = .busy w) : ∃ t, s.busyEdge w = .next t := by
  cases w with
  | inReset | hold | finishing => exact ⟨_, rfl⟩
  | leadIn left under => exact State.leadInFor_next hI.1 _ under
  | sending under => exact hI.sendEdge_next hs

/-- The edge that accepts a word, legal or not, has a next state. -/
theorem step_next_of_accepting (ha : s.accepting) : ∃ t, step s = .next t := by
  by_cases hd : decode s.pins.cmdData = .ok .render
  · obtain ⟨t, ht⟩ := State.leadInFor_next ha.1 s.cfg.lStart s.oracle
    exact ⟨t.advance, by rw [step_of_render ha hd, ht, endCycle_next]⟩
  · exact ⟨_, step_of_not_render ha hd⟩

/-- Settles O57, by the kinds of edge: only a sending encoder could stop, and `Enc.clock_sendingOk` keeps it in its bounds. -/
theorem invariantStatesNeverStop : Obligations.InvariantStatesNeverStop := by
  intro s hI
  have hv : s.cfg.valid := hI.1
  cases hr : s.pins.rst with
  | true => exact ⟨_, step_of_reset hv hr⟩
  | false =>
    cases hs : s.hs with
    | ready =>
      cases hc : s.pins.cmdValid with
      | true => exact step_next_of_accepting ⟨hv, hr, hs, hc⟩
      | false => exact ⟨s.advance, by simp [step_of_ready hv hr hs, hc]⟩
    | busy w =>
      obtain ⟨t, ht⟩ := hI.busyEdge_next hs
      exact ⟨t.advance, by rw [step_of_busy hv hr hs, ht, endCycle_next]⟩
    | resp r => exact ⟨_, step_of_resp hv hr hs⟩

end Sys2Proof.Machine
end

section
/-! What the two scalers share (00_scope R8, 40_pixel_buffer R80, 41_scaled_write R91): an exact product, one division
that truncates, a clamp to a channel. Each of the three steps is monotone, and the laws of the scalers follow from that. -/

namespace Sys2Proof

variable {v w lo hi num num' : Int} {den : Nat}

theorem clamp_eq_max_min (h : lo ≤ hi) (v : Int) : clamp v lo hi = max lo (min hi v) := by
  unfold clamp
  split_ifs <;> omega

theorem clamp_mono (h : lo ≤ hi) (hvw : v ≤ w) : clamp v lo hi ≤ clamp w lo hi := by
  rw [clamp_eq_max_min h, clamp_eq_max_min h]
  exact max_le_max le_rfl (min_le_min le_rfl hvw)

theorem clamp_of_mem (hlo : lo ≤ v) (hhi : v ≤ hi) : clamp v lo hi = v := by
  rw [clamp_eq_max_min (hlo.trans hhi), min_eq_right hhi, max_eq_right hlo]

theorem clamp_of_le (h : lo ≤ hi) (hv : v ≤ lo) : clamp v lo hi = lo := by
  rw [clamp_eq_max_min h, max_eq_left ((min_le_right _ _).trans hv)]

theorem clamp_of_ge (h : lo ≤ hi) (hv : hi ≤ v) : clamp v lo hi = hi := by
  rw [clamp_eq_max_min h, min_eq_left hv, max_eq_right h]

theorem trunc_mono (hden : 1 ≤ den) : Monotone fun num => trunc num den :=
  fun _ _ h => Int.tdiv_le_tdiv (Int.natCast_pos.2 hden) h

@[simp] theorem trunc_zero (den : Nat) : trunc 0 den = 0 := Int.zero_tdiv _

theorem trunc_mul_self (hden : 1 ≤ den) (v : Int) : trunc (v * den) den = v :=
  Int.mul_tdiv_cancel v (Int.natCast_pos.2 hden).ne'

/-- Truncation commutes with the clamp, since it is monotone (R80). -/
theorem clamp_trunc_eq_trunc_clamp (hden : 1 ≤ den) (num : Int) :
    clamp (trunc num den) 0 255 = trunc (clamp num 0 (255 * den)) den := by
  have hmax := (trunc_mono hden).map_max (a := 0) (b := min (255 * (den : Int)) num)
  have hmin := (trunc_mono hden).map_min (a := 255 * (den : Int)) (b := num)
  rw [clamp_eq_max_min (by decide), clamp_eq_max_min (by omega), hmax, hmin, trunc_zero, trunc_mul_self hden]

/-- Truncation and the floor differ below zero only, where the clamp gives 0 for both (R86, R92). -/
theorem clamp_trunc_eq_clamp_ediv (hden : 1 ≤ den) (num : Int) :
    clamp (trunc num den) 0 255 = clamp (num / den) 0 255 := by
  rcases le_total 0 num with hpos | hneg
  · rw [trunc, Int.tdiv_eq_ediv_of_nonneg hpos]
  · have htrunc : trunc num den ≤ 0 := (trunc_mono hden hneg).trans_eq (trunc_zero den)
    have hfloor : num / den ≤ 0 := Int.ediv_nonpos_of_nonpos_of_neg hneg (Int.natCast_pos.2 hden)
    rw [clamp_of_le (by decide) htrunc, clamp_of_le (by decide) hfloor]

/-- The channel of an integer in 0 .. 255 is that integer. -/
theorem channelOfInt_toNat (hlo : 0 ≤ v) (hhi : v ≤ 255) : ((channelOfInt v).toNat : Int) = v := by
  rw [channelOfInt, BitVec.toNat_ofNat]
  omega

/-- Two channels are equal where their intensities, taken as integers, are. -/
theorem channel_eq_of_toInt {c c' : Channel} (h : (c.toNat : Int) = c'.toNat) : c = c' :=
  BitVec.eq_of_toNat_eq (Int.ofNat.inj h)

/-- A colour is made of its three channels. -/
theorem rgbOf_red_green_blue (c : Colour) : rgbOf (red c) (green c) (blue c) = c := by
  have hrg : red c ++ green c = c.extractLsb' 8 16 := BitVec.extractLsb'_append_extractLsb'_eq_extractLsb' rfl
  rw [rgbOf, hrg]
  exact BitVec.extractLsb'_append_extractLsb'

/-- The bounds of a scaler's product of a channel and a 16-bit factor. -/
theorem channel_mul_sint16_bounds (c : Channel) (v : BitVec 16) :
    -8355840 ≤ (c.toNat : Int) * sint16 v ∧ (c.toNat : Int) * sint16 v ≤ 8355585 := by
  obtain ⟨-, -, hlo, hhi⟩ := Machine.operandsAreExtendedAsTheSpecSays.2 v
  have hc : c.toNat < 256 := c.isLt
  have hlo := Int.mul_le_mul_of_nonneg_left hlo (Int.natCast_nonneg c.toNat)
  have hhi := Int.mul_le_mul_of_nonneg_left hhi (Int.natCast_nonneg c.toNat)
  omega

namespace Machine

/-- A quotient as a channel: truncated, then clamped. Both scalers are this of their product. -/
def scaled (num : Int) (den : Nat) : Channel := channelOfInt (clamp (trunc num den) 0 255)

theorem scaled_toNat (num : Int) (den : Nat) : ((scaled num den).toNat : Int) = clamp (trunc num den) 0 255 := by
  refine channelOfInt_toNat ?_ ?_ <;> rw [clamp_eq_max_min (by decide)] <;> omega

theorem scaled_mono (hden : 1 ≤ den) (h : num ≤ num') : (scaled num den).toNat ≤ (scaled num' den).toNat := by
  have hclamp := clamp_mono (lo := 0) (hi := 255) (by decide) (trunc_mono hden h)
  rw [← scaled_toNat, ← scaled_toNat] at hclamp
  exact Int.ofNat_le.1 hclamp

theorem scaled_mul_self (hden : 1 ≤ den) (c : Channel) : scaled (c.toNat * den) den = c := by
  have hc : c.toNat < 256 := c.isLt
  refine channel_eq_of_toInt ?_
  rw [scaled_toNat, trunc_mul_self hden, clamp_of_mem (by omega) (by omega)]

theorem scaled_of_nonpos (hden : 1 ≤ den) (h : num ≤ 0) : scaled num den = 0 := by
  have htrunc : trunc num den ≤ 0 := (trunc_mono hden h).trans_eq (trunc_zero den)
  refine channel_eq_of_toInt ?_
  rw [scaled_toNat, clamp_of_le (by decide) htrunc]
  rfl

theorem scaled_of_ge (hden : 1 ≤ den) (h : 255 * (den : Int) ≤ num) : scaled num den = 255 := by
  have htrunc : 255 ≤ trunc num den := (trunc_mul_self hden 255).symm.trans_le (trunc_mono hden h)
  refine channel_eq_of_toInt ?_
  rw [scaled_toNat, clamp_of_ge (by decide) htrunc]
  rfl

end Machine

end Sys2Proof
end

section
/-! The brightness scaler (40_pixel_buffer R80, R86). -/

namespace Sys2Proof

/-- A 16-bit pattern below `0x8000` is its own signed value (R7). -/
theorem sint16_of_lt {v : BitVec 16} (h : v.toNat < 0x8000) : sint16 v = v.toNat := if_pos h

theorem sint16_neg_of_ge {v : BitVec 16} (h : 0x8000 ≤ v.toNat) : sint16 v < 0 := by
  rw [sint16, if_neg (Nat.not_lt.2 h)]
  omega

namespace Machine

variable {c : Channel} {b : BitVec 16}

theorem scaleBr_eq_scaled (c : Channel) (b : BitVec 16) : scaleBr c b = scaled (c.toNat * sint16 b) 256 := rfl

theorem scaleBr_toNat (c : Channel) (b : BitVec 16) :
    ((scaleBr c b).toNat : Int) = clamp (trunc ((c.toNat : Int) * sint16 b) 256) 0 255 := by
  rw [scaleBr_eq_scaled, scaled_toNat]

theorem scaleBr_of_nonpos (h : (c.toNat : Int) * sint16 b ≤ 0) : scaleBr c b = 0 := by
  rw [scaleBr_eq_scaled, scaled_of_nonpos (by decide) h]

theorem scaleBr_of_ge (h : 255 * 256 ≤ (c.toNat : Int) * sint16 b) : scaleBr c b = 255 := by
  rw [scaleBr_eq_scaled, scaled_of_ge (by decide) h]

/-- A larger product, whether by its channel or by its factor, gives no smaller channel. -/
theorem scaleBr_mono {c' : Channel} {b' : BitVec 16} (h : (c.toNat : Int) * sint16 b ≤ (c'.toNat : Int) * sint16 b') :
    (scaleBr c b).toNat ≤ (scaleBr c' b').toNat := by
  rw [scaleBr_eq_scaled, scaleBr_eq_scaled]
  exact scaled_mono (by decide) h

theorem scaleBr_zero_factor (c : Channel) : scaleBr c 0 = 0 :=
  scaleBr_of_nonpos (Int.mul_zero _).le

theorem scaleBr_zero_channel (b : BitVec 16) : scaleBr 0 b = 0 :=
  scaleBr_of_nonpos (Int.zero_mul _).le

theorem scaleBr_negative_factor (c : Channel) (h : 0x8000 ≤ b.toNat) : scaleBr c b = 0 :=
  scaleBr_of_nonpos (mul_nonpos_of_nonneg_of_nonpos (Int.natCast_nonneg _) (sint16_neg_of_ge h).le)

/-- The factor 1 changes no channel. -/
theorem scaleBr_unit_factor (c : Channel) : scaleBr c 0x0100 = c := by
  have hunit : sint16 0x0100 = (256 : Nat) := by decide
  rw [scaleBr_eq_scaled, hunit, scaled_mul_self (by decide)]

/-- The factor 1 changes no colour. -/
theorem scaleBrColour_unit_factor (rgb : Colour) : scaleBrColour rgb 0x0100 = rgb := by
  simp only [scaleBrColour, mapChannels, scaleBr_unit_factor, rgbOf_red_green_blue]

/-- Settles O32: the corners are those of the product (`scaleBr_of_nonpos`, `scaleBr_of_ge`, `scaleBr_unit_factor`),
and the exchange is `clamp_trunc_eq_trunc_clamp`. -/
theorem scaleBrFollowsItsFormula : Obligations.ScaleBrFollowsItsFormula := by
  refine ⟨fun c b => ?_, fun _ _ => rfl, fun num den hden => clamp_trunc_eq_trunc_clamp hden num, by decide⟩
  refine ⟨scaleBr_toNat c b, ?_, ?_, scaleBr_negative_factor c, scaleBr_of_ge, ?_⟩
  · rintro rfl
    exact scaleBr_unit_factor c
  · rintro rfl
    exact scaleBr_zero_factor c
  · rintro rfl
    exact scaleBr_zero_channel b

theorem scaleBr_toNat_floor (c : Channel) (b : BitVec 16) :
    ((scaleBr c b).toNat : Int) = clamp ((c.toNat : Int) * sint16 b / 256) 0 255 :=
  (scaleBr_toNat c b).trans (clamp_trunc_eq_clamp_ediv (by decide) _)

/-- A nominal factor, one between 0 and 1, needs no clamp. -/
theorem scaleBr_nominal (c : Channel) (h : b.toNat ≤ 0x0100) :
    (scaleBr c b).toNat = c.toNat * b.toNat / 256 ∧ (scaleBr c b).toNat ≤ c.toNat := by
  have hc : c.toNat < 256 := c.isLt
  have hprod : c.toNat * b.toNat ≤ c.toNat * 256 := Nat.mul_le_mul_left _ h
  have hfloor := scaleBr_toNat_floor c b
  rw [sint16_of_lt (by omega), clamp_of_mem (by omega) (by omega)] at hfloor
  omega

/-- Among the nominal factors only 1 keeps full intensity. -/
theorem unit_factor_of_scaleBr_full (h : b.toNat ≤ 0x0100) (hfull : scaleBr 255 b = 255) : b = 0x0100 := by
  obtain ⟨heq, -⟩ := scaleBr_nominal 255 h
  rw [hfull] at heq
  have hquot : 255 = 255 * b.toNat / 256 := heq
  have hge : 256 ≤ b.toNat := by omega
  exact BitVec.eq_of_toNat_eq (Nat.le_antisymm h hge)

/-- Settles O33: a larger channel or a larger factor gives a larger product, and `scaleBr_mono` does the rest. -/
theorem scaleBrObeysItsLaws : Obligations.ScaleBrObeysItsLaws := by
  refine ⟨fun c b => ⟨channel_mul_sint16_bounds c b, scaleBr_nominal c, scaleBr_toNat_floor c b⟩,
    fun c c' b hb hc => ?_, fun c b b' hb => ?_, fun b hb => ⟨fun h => unit_factor_of_scaleBr_full hb (h 255), ?_⟩,
    by decide, by decide⟩
  · exact scaleBr_mono (Int.mul_le_mul_of_nonneg_right (Int.ofNat_le.2 hc) hb)
  · exact scaleBr_mono (Int.mul_le_mul_of_nonneg_left hb (Int.natCast_nonneg _))
  · rintro rfl c
    exact scaleBr_unit_factor c

end Machine

end Sys2Proof
end

section
/-! The commands of the pixel buffer (40_pixel_buffer R81 to R85): each completes as the command level's answer says,
and its latency is at least one BUSY cycle. -/

namespace Sys2Proof.Machine

variable {s : State} {i : Instr} {idx : Index}

/-- A command other than RENDER, whose cell exists if it names one, completes: it leaves what its own rule says and its
response after the latency (R73, R160). -/
theorem exec_eq_busy (hv : s.cfg.valid) (hne : i ≠ .render)
    (hhit : ∀ idx, indexOf i = some idx → idx.toNat < s.cfg.n) :
    exec i s = .next { s with
      pix := (s.executed i).pix
      bright := (s.executed i).bright
      hs := .busy (.finishing (s.executed i).busy (s.executed i).word) } := by
  rw [exec_of_hit hne hhit, State.finishWith, State.finishIn_pos _ _ (State.executed_fits hv hhit).busy]
  rfl

theorem exec_set_of_lt (hv : s.cfg.valid) (h : idx.toNat < s.cfg.n) (rgb : Colour) :
    exec (.set idx rgb) s = .next { s with
      pix := s.pix.write idx.toNat rgb
      hs := .busy (.finishing s.cfg.latency.set (response .ok 0)) } :=
  exec_eq_busy hv (by simp) fun _ hi => Option.some.inj hi ▸ h

theorem exec_snap_of_lt (hv : s.cfg.valid) (h : idx.toNat < s.cfg.n) :
    exec (.snap idx) s = .next { s with
      hs := .busy (.finishing s.cfg.latency.snap (response .ok (scaleBrColour (s.pix.read idx.toNat) s.bright))) } :=
  exec_eq_busy hv (by simp) fun _ hi => Option.some.inj hi ▸ h

/-- Settles O19: the command's word by `decodeOfEncodeIsTheCommand`, a cell that does not exist by O18. -/
theorem setWritesOneRawColour : Obligations.SetWritesOneRawColour :=
  fun s idx rgb hv =>
    ⟨decodeOfEncodeIsTheCommand (.set idx rgb),
      fun hlt => ⟨exec_set_of_lt hv hlt rgb, fun hm j => Memory.read_write hm _ j rgb⟩,
      outOfRangeIsAnsweredAndChangesNothing.1 s (.set idx rgb) idx hv rfl⟩

/-- Settles O20: the cells are `Memory.read_fill`, and a fill of one cell is one write. -/
theorem fillWritesEveryCell : Obligations.FillWritesEveryCell := by
  refine fun s rgb hv => ⟨decodeOfEncodeIsTheCommand (.fill rgb), exec_eq_busy hv (by simp) (by simp [indexOf]),
    fun hm j => Memory.read_fill hm _ j rgb, fun hn => ?_⟩
  rw [hn, Memory.fill_succ, Memory.fill_zero]

/-- Settles O21: SETBR's own rule, by `exec_eq_busy`. -/
theorem setbrCopiesThePatternToBright : Obligations.SetbrCopiesThePatternToBright :=
  fun _ aux hv => ⟨decodeOfEncodeIsTheCommand (.setbr aux), exec_eq_busy hv (by simp) (by simp [indexOf])⟩

/-- Settles O22: with the factor 1 the answer is the raw colour by `scaleBrColour_unit_factor`. -/
theorem snapAnswersTheScaledColour : Obligations.SnapAnswersTheScaledColour :=
  fun s idx hv =>
    ⟨decodeOfEncodeIsTheCommand (.snap idx),
      fun hlt => ⟨exec_snap_of_lt hv hlt, fun hb => hb ▸ scaleBrColour_unit_factor _⟩,
      outOfRangeIsAnsweredAndChangesNothing.1 s (.snap idx) idx hv rfl⟩

/-- Settles O30: SNAP reads the cell SET has written (`Memory.read_write`), and the factor 1 keeps its colour. -/
theorem setThenSnapGivesTheColourBack : Obligations.SetThenSnapGivesTheColourBack := by
  intro s idx rgb hv hm hlt hb
  have hread : (s.pix.write idx.toNat rgb).read idx.toNat = rgb := (Memory.read_write hm _ _ rgb).trans (if_pos rfl)
  refine ⟨_, _, exec_set_of_lt hv hlt rgb, exec_snap_of_lt hv hlt, ?_⟩
  simp only [hread, hb, scaleBrColour_unit_factor]

@[simp] theorem State.snapshot_length (s : State) : s.snapshot.length = s.cfg.n := by
  simp [State.snapshot]

theorem State.snapshot_getElem? {k : Nat} (h : k < s.cfg.n) :
    s.snapshot[k]? = some (scaleBrColour (s.pix.read k) s.bright) := by
  simp [State.snapshot, h]

/-- Settles O31: entry `k` of the snapshot is the colour `exec_snap_of_lt` answers. -/
theorem snapshotIsWhatSnapAnswers : Obligations.SnapshotIsWhatSnapAnswers :=
  fun s hv => ⟨s.snapshot_length, fun _ hlt =>
    ⟨State.snapshot_getElem? hlt, _, _, exec_snap_of_lt hv hlt, State.snapshot_getElem? hlt, rfl⟩⟩

end Sys2Proof.Machine
end

section
/-! The percentage scaler and SETP (41_scaled_write R90 to R92). -/

namespace Sys2Proof.Machine

variable {c : Channel} {p : Int}

/-! The scaler, by the corners and the monotonicity of `scaled`. -/

theorem scalePct_eq_scaled (c : Channel) (p : Int) : scalePct c p = scaled (c.toNat * p) 100 := rfl

theorem scalePct_toNat (c : Channel) (p : Int) :
    ((scalePct c p).toNat : Int) = clamp (trunc ((c.toNat : Int) * p) 100) 0 255 := by
  rw [scalePct_eq_scaled, scaled_toNat]

theorem scalePct_of_nonpos (h : (c.toNat : Int) * p ≤ 0) : scalePct c p = 0 := by
  rw [scalePct_eq_scaled, scaled_of_nonpos (by decide) h]

theorem scalePct_of_ge (h : 25500 ≤ (c.toNat : Int) * p) : scalePct c p = 255 := by
  rw [scalePct_eq_scaled, scaled_of_ge (by decide) h]

/-- A larger product, whether by its channel or by its percentage, gives no smaller channel. -/
theorem scalePct_mono {c' : Channel} {p' : Int} (h : (c.toNat : Int) * p ≤ (c'.toNat : Int) * p') :
    (scalePct c p).toNat ≤ (scalePct c' p').toNat := by
  rw [scalePct_eq_scaled, scalePct_eq_scaled]
  exact scaled_mono (by decide) h

theorem scalePct_zero_channel (p : Int) : scalePct 0 p = 0 :=
  scalePct_of_nonpos (Int.zero_mul _).le

theorem scalePct_nonpos_percentage (c : Channel) (h : p ≤ 0) : scalePct c p = 0 :=
  scalePct_of_nonpos (mul_nonpos_of_nonneg_of_nonpos (Int.natCast_nonneg _) h)

/-- 100 percent changes no channel. -/
theorem scalePct_hundred (c : Channel) : scalePct c 100 = c :=
  scaled_mul_self (by decide) c

/-- Settles O34: the corners are those of the product (`scalePct_of_nonpos`, `scalePct_of_ge`, `scalePct_hundred`). -/
theorem scalePctFollowsItsFormula : Obligations.ScalePctFollowsItsFormula := by
  refine ⟨fun c p => ⟨scalePct_toNat c p, ?_, scalePct_nonpos_percentage c, scalePct_of_ge, ?_⟩, fun _ _ => rfl,
    by decide⟩
  · rintro rfl
    exact scalePct_hundred c
  · rintro rfl
    exact scalePct_zero_channel p

theorem scalePct_toNat_floor (c : Channel) (p : Int) :
    ((scalePct c p).toNat : Int) = clamp ((c.toNat : Int) * p / 100) 0 255 :=
  (scalePct_toNat c p).trans (clamp_trunc_eq_clamp_ediv (by decide) _)

/-- A percentage from 0 to 100 needs no clamp. -/
theorem scalePct_nominal (c : Channel) (hp : 0 ≤ p) (hp' : p ≤ 100) :
    ((scalePct c p).toNat : Int) = (c.toNat : Int) * p / 100 ∧ (scalePct c p).toNat ≤ c.toNat := by
  have hc : c.toNat < 256 := c.isLt
  have hpos : 0 ≤ (c.toNat : Int) * p := Int.mul_nonneg (Int.natCast_nonneg _) hp
  have hprod : (c.toNat : Int) * p ≤ c.toNat * 100 := Int.mul_le_mul_of_nonneg_left hp' (Int.natCast_nonneg _)
  have hfloor := scalePct_toNat_floor c p
  rw [clamp_of_mem (by omega) (by omega)] at hfloor
  omega

/-- Settles O35: a larger channel or a larger percentage gives a larger product, and `scalePct_mono` does the rest. -/
theorem scalePctObeysItsLaws : Obligations.ScalePctObeysItsLaws := by
  refine ⟨channel_mul_sint16_bounds, fun c p => ⟨scalePct_toNat_floor c p, scalePct_nominal c⟩,
    fun c c' p hp hc => ?_, fun c p p' hp => ?_, by decide⟩
  · exact scalePct_mono (Int.mul_le_mul_of_nonneg_right (Int.ofNat_le.2 hc) hp)
  · exact scalePct_mono (Int.mul_le_mul_of_nonneg_left hp (Int.natCast_nonneg _))

/-! SETP. -/

/-- 100 percent changes no colour. -/
theorem scalePctColour_hundred (rgb : Colour) : scalePctColour rgb 100 = rgb := by
  simp only [scalePctColour, mapChannels, scalePct_hundred, rgbOf_red_green_blue]

/-- 0 and every negative percentage give black. -/
theorem scalePctColour_of_nonpos (rgb : Colour) (h : p ≤ 0) : scalePctColour rgb p = 0 := by
  simp only [scalePctColour, mapChannels, scalePct_nonpos_percentage _ h]
  rfl

theorem exec_setp_of_lt {s : State} {idx : Index} (hv : s.cfg.valid) (h : idx.toNat < s.cfg.n) (rgb : Colour)
    (pct : Aux) :
    exec (.setp idx rgb pct) s = .next { s with
      pix := s.pix.write idx.toNat (scalePctColour rgb (sint16 pct))
      hs := .busy (.finishing s.cfg.latency.setp (response .ok 0)) } :=
  exec_eq_busy hv (by simp) fun _ hi => Option.some.inj hi ▸ h

/-- Settles O23: the command's word by `decodeOfEncodeIsTheCommand`, a cell that does not exist by O18. -/
theorem setpWritesThePercentageScaledColour : Obligations.SetpWritesThePercentageScaledColour :=
  fun s idx rgb pct hv =>
    ⟨decodeOfEncodeIsTheCommand (.setp idx rgb pct),
      fun hlt => ⟨exec_setp_of_lt hv hlt rgb pct, fun hm j => Memory.read_write hm _ j _⟩,
      fun h => h ▸ scalePctColour_hundred rgb,
      scalePctColour_of_nonpos rgb,
      outOfRangeIsAnsweredAndChangesNothing.1 s (.setp idx rgb pct) idx hv rfl⟩

end Sys2Proof.Machine
end

section
/-! The waveforms as lists (42_protocol_encoder R96 to R104): the bits of a frame, the runs of a bit cell, what the data
waveform counts, and what the low runs at the ends of a RENDER's waveform change. -/

namespace Sys2Proof.Machine

variable {c : Config}

/-! The bits of a frame (R96). -/

@[simp] theorem wordBits_length (w : WireWord) : (wordBits w).length = 24 := by
  simp [wordBits]

theorem wordBits_getElem? (w : WireWord) {j : Nat} (hj : j < 24) : (wordBits w)[j]? = some (w.getLsbD (23 - j)) := by
  simp [wordBits, hj]

theorem frameBits_cons (w : WireWord) (ws : List WireWord) :
    frameBits (w :: ws) = wordBits w ++ frameBits ws := rfl

theorem frameBits_length (ws : List WireWord) : (frameBits ws).length = 24 * ws.length := by
  induction ws with
  | nil => rfl
  | cons w ws ih =>
    rw [frameBits_cons, List.length_append, wordBits_length, ih, List.length_cons]
    omega

/-- Word `i` fills the frame's bits `24 * i` to `24 * i + 23`, its bit 23 first. -/
theorem frameBits_getElem? (ws : List WireWord) (i : Nat) {j : Nat} (hj : j < 24) :
    (frameBits ws)[24 * i + j]? = (ws[i]?).map fun w => w.getLsbD (23 - j) := by
  induction ws generalizing i with
  | nil => rfl
  | cons w ws ih =>
    rw [frameBits_cons]
    cases i with
    | zero => rw [List.getElem?_append_left (by simp; omega), Nat.mul_zero, Nat.zero_add, wordBits_getElem? w hj]; rfl
    | succ i =>
      have hrest : 24 * (i + 1) + j - 24 = 24 * i + j := by omega
      rw [List.getElem?_append_right (by simp; omega), wordBits_length, hrest, ih, List.getElem?_cons_succ]

/-- Settles O41: 24 bits a word (`frameBits_length`), in the words' order (`frameBits_getElem?`). -/
theorem frameBitsAreTheWordsMsbFirst : Obligations.FrameBitsAreTheWordsMsbFirst :=
  fun ws => ⟨frameBits_length ws, fun i _ hj => frameBits_getElem? ws i hj⟩

/-! The runs of a bit cell (R97, R98). -/

@[simp] theorem emit_length (b : Bool) (k : Nat) : (emit b k).length = k := List.length_replicate

theorem emit_getElem? (b : Bool) (k i : Nat) : (emit b k)[i]? = if i < k then some b else none :=
  List.getElem?_replicate

theorem cell_length (c : Config) (b : Bool) : (cell c b).length = cellLen c := by
  simp [cell, cellLen, Nat.add_assoc]

/-- Phase A is high, phase B is the bit, phase C is low. -/
theorem cell_getElem? (c : Config) (b : Bool) (k : Nat) :
    (cell c b)[k]? =
      if k < c.t1 then some true else if k < c.t1 + c.t2 then some b
      else if k < c.t1 + c.t2 + c.t3 then some false else none := by
  simp only [cell, List.getElem?_append, List.length_append, emit_length, emit_getElem?]
  grind

theorem cell_true (c : Config) : cell c true = emit true (c.t1 + c.t2) ++ emit false c.t3 := by
  rw [cell, emit_add]

theorem cell_false (c : Config) : cell c false = emit true c.t1 ++ emit false (c.t2 + c.t3) := by
  rw [cell, emit_add, List.append_assoc]

theorem runLengths_emit (b : Bool) {k : Nat} (hk : 1 ≤ k) : runLengths (emit b k) = [(b, k)] := by
  induction k, hk using Nat.le_induction with
  | base => rfl
  | succ k _ ih => simp only [emit_succ, runLengths, ih, if_true]

/-- A run before one of the other level stays a run of its own. -/
theorem runLengths_emit_append {b b' : Bool} (hne : b ≠ b') {k m : Nat} {w : List Bool} {runs : List (Bool × Nat)}
    (hw : runLengths w = (b', m) :: runs) (hk : 1 ≤ k) : runLengths (emit b k ++ w) = (b, k) :: (b', m) :: runs := by
  induction k, hk using Nat.le_induction with
  | base =>
    show runLengths (b :: w) = _
    simp only [runLengths, hw, if_neg hne]
  | succ k _ ih => simp only [emit_succ, List.cons_append, runLengths, ih, if_true]

/-- A high run and then a low one. -/
theorem runLengths_high_low {k m : Nat} (hk : 1 ≤ k) (hm : 1 ≤ m) :
    runLengths (emit true k ++ emit false m) = [(true, k), (false, m)] :=
  runLengths_emit_append (by decide) (runLengths_emit false hm) hk

/-- Settles O42: phase B makes the high run of a one and the low run of a zero longer (`cell_true`, `cell_false`). -/
theorem bitCellsHaveTheirShape : Obligations.BitCellsHaveTheirShape := by
  intro c hv
  obtain ⟨-, ⟨h1, h2, h3⟩, ⟨hlong, hshort⟩, -⟩ := c.valid_iff.1 hv
  refine ⟨cell_getElem? c, ?_, ?_, Nat.lt_add_of_pos_right h2, Nat.lt_add_of_pos_left h2, hlong, hshort⟩
  · exact cell_true c ▸ runLengths_high_low (Nat.le_add_right_of_le h1) h3
  · exact cell_false c ▸ runLengths_high_low h1 (Nat.le_add_right_of_le h2)

/-! What the data waveform counts (R99, R103): bit by bit, the bits being any list. -/

theorem cells_length (c : Config) (bits : List Bool) : (bits.flatMap (cell c)).length = bits.length * cellLen c := by
  induction bits with
  | nil => simp
  | cons b bits ih =>
    rw [List.flatMap_cons, List.length_append, cell_length, ih, List.length_cons, Nat.succ_mul, Nat.add_comm]

theorem highCycles_emit (b : Bool) (k : Nat) : highCycles (emit b k) = if b then k else 0 := by
  cases b <;> simp [highCycles, emit, List.count_replicate]

theorem highCycles_append (w w' : List Bool) : highCycles (w ++ w') = highCycles w + highCycles w' :=
  List.count_append

theorem highCycles_cell (c : Config) (b : Bool) : highCycles (cell c b) = c.t1 + if b then c.t2 else 0 := by
  simp [cell, highCycles_append, highCycles_emit]

theorem cells_highCycles (c : Config) (bits : List Bool) :
    highCycles (bits.flatMap (cell c)) = bits.length * c.t1 + c.t2 * bits.count true := by
  induction bits with
  | nil => simp [highCycles]
  | cons b bits ih =>
    rw [List.flatMap_cons, highCycles_append, highCycles_cell, ih]
    cases b <;> simp <;> ring

theorem risingEdges_emit_self (b : Bool) (k : Nat) (w : List Bool) : risingEdges b (emit b k ++ w) = risingEdges b w := by
  induction k with
  | zero => rfl
  | succ k ih =>
    rw [emit_succ, List.cons_append, risingEdges, ih]
    cases b <;> simp

theorem risingEdges_emit (prev b : Bool) {k : Nat} (hk : 1 ≤ k) (w : List Bool) :
    risingEdges prev (emit b k ++ w) = (if prev = false ∧ b = true then 1 else 0) + risingEdges b w := by
  obtain ⟨k, rfl⟩ := Nat.exists_eq_add_of_le' hk
  rw [emit_succ, List.cons_append, risingEdges, risingEdges_emit_self]

/-- A bit cell begins with the one rising edge it has, and ends low. -/
theorem risingEdges_cell (hv : c.valid) (b : Bool) (w : List Bool) :
    risingEdges false (cell c b ++ w) = 1 + risingEdges false w := by
  obtain ⟨-, ⟨h1, h2, h3⟩, -⟩ := c.valid_iff.1 hv
  simp only [cell, List.append_assoc, risingEdges_emit _ _ h1, risingEdges_emit _ _ h2, risingEdges_emit _ _ h3]
  cases b <;> simp

theorem risingEdges_cells (hv : c.valid) (bits w : List Bool) :
    risingEdges false (bits.flatMap (cell c) ++ w) = bits.length + risingEdges false w := by
  induction bits with
  | nil => simp
  | cons b bits ih =>
    rw [List.flatMap_cons, List.append_assoc, risingEdges_cell hv, ih, List.length_cons]
    omega

theorem waveData_length (c : Config) (ws : List WireWord) : (waveData c ws).length = dataLen c ws.length := by
  rw [waveData, cells_length, frameBits_length, dataLen]

/-- Each bit of each word is one rising edge, whatever follows the data. -/
theorem risingEdges_waveData (hv : c.valid) (ws : List WireWord) (w : List Bool) :
    risingEdges false (waveData c ws ++ w) = 24 * ws.length + risingEdges false w := by
  rw [waveData, risingEdges_cells hv, frameBits_length]

/-- Settles O43: the counts of a list of bit cells, at the 24 bits a word of `frameBits_length`. -/
theorem dataWaveformCounts : Obligations.DataWaveformCounts := by
  refine fun c ws hv => ⟨waveData_length c ws, ?_, ?_⟩
  · simpa [risingEdges] using risingEdges_waveData hv ws []
  · rw [waveData, cells_highCycles, frameBits_length, popcount]

theorem frameWave_length (c : Config) (ws : List WireWord) : (frameWave c ws).length = frameLen c ws.length := by
  simp only [frameWave, frameLen, List.length_append, waveData_length, emit_length]

theorem State.take_wireWords_length {s : State} {m : Nat} (hm : m ≤ s.cfg.n) : (s.wireWords.take m).length = m := by
  rw [List.length_take, State.wireWords_length, Nat.min_eq_left hm]

/-- The frame of the first `m` pixels lasts as long as R103 says. -/
theorem State.frameWave_take_length {s : State} {m : Nat} (hm : m ≤ s.cfg.n) :
    (frameWave s.cfg (s.wireWords.take m)).length = frameLen s.cfg m := by
  rw [frameWave_length, State.take_wireWords_length hm]

/-- Settles O44: `State.frameWave_take_length`, with all the pixels and with the `k` before a timing violation. -/
theorem renderLengthIsExact : Obligations.RenderLengthIsExact :=
  ⟨fun _ => ⟨State.frameWave_take_length (Nat.le_refl _), fun _ hk => State.frameWave_take_length (Nat.le_of_lt hk)⟩,
    rfl, rfl⟩

/-! The low runs at the two ends (R104). -/

theorem dropWhile_emit_false_append (k : Nat) (w : List Bool) :
    (emit false k ++ w).dropWhile (· == false) = w.dropWhile (· == false) :=
  List.dropWhile_append_of_pos fun b hb => by simp [List.eq_of_mem_replicate hb]

theorem trimLow_emit_false_append (k : Nat) (w : List Bool) : trimLow (emit false k ++ w) = trimLow w := by
  rw [trimLow, dropWhile_emit_false_append, ← trimLow]

/-- Behind a waveform with a high cycle a low run is trimmed off the end; behind one with none it is all there is, and
trimmed off the front. -/
theorem trimLow_append_emit_false (w : List Bool) (k : Nat) : trimLow (w ++ emit false k) = trimLow w := by
  have hlow : (emit false k).dropWhile (· == false) = [] := by
    simpa using dropWhile_emit_false_append k []
  have hrev : (emit false k).reverse = emit false k := List.reverse_replicate
  rw [trimLow, List.dropWhile_append, trimLow]
  split
  · next hempty => rw [hlow, List.isEmpty_iff.1 hempty]
  · rw [List.reverse_append, hrev, dropWhile_emit_false_append]

/-- Settles O45: the waveform is the frame's between two low runs, and no other part of it reads `L_START` or `L_END`. -/
theorem leadInAndLeadOutOnlyLengthenLowRuns : Obligations.LeadInAndLeadOutOnlyLengthenLowRuns :=
  fun _ _ _ _ _ => (trimLow_append_emit_false _ _).trans (trimLow_emit_false_append _ _)

end Sys2Proof.Machine
end

section
/-! Wire words and `tx_active` (42_protocol_encoder R95, R106). -/

namespace Sys2Proof.Machine

theorem State.wireWords_getElem? {s : State} {i : Nat} (h : i < s.cfg.n) :
    s.wireWords[i]? = some (wireWordOf s.cfg s.bright (s.pix.read i)) := by
  simp [State.wireWords, h]

/-- Settles O40: a cell below N has the wire word `wireWordOf` says, and `arrange` is the table of the six orders. -/
theorem wireWordsFollowWireOrder : Obligations.WireWordsFollowWireOrder := by
  refine ⟨fun s i hi => ⟨(State.wireWord?_of_lt hi).trans (State.wireWords_getElem? hi).symm, ?_⟩, rfl, ?_, ?_⟩
  · rw [State.wireWords_getElem? hi, wireWordOf]
    cases s.cfg.wireOrder <;> rfl
  · decide
  · decide

theorem Enc.txActive_iff (e : Enc) : e.txActive = true ↔ e.phase = .data := by
  cases hp : e.phase <;> simp [Enc.txActive, hp]

/-- Settles O51: by `Enc.dout_iff` `dout` is high in the DATA phase only. -/
theorem txActiveIsTheDataPhase : Obligations.TxActiveIsTheDataPhase :=
  fun s => ⟨s.enc.txActive_iff, fun hdout => s.enc.txActive_iff.2 (s.enc.dout_iff.1 hdout).1⟩

end Sys2Proof.Machine
end

section
/-! RENDER, from the edge that accepts it to its response (42_protocol_encoder R100 to R110): what the oracle may answer, how
the frame begins, the run of `State.answers_render` as the pins show it, and the latch gap on its own. -/

namespace Sys2Proof.Machine

variable {s : State}

/-! The oracle and the accepting edge (R102, R134). -/

theorem State.oracle_of_noPin (h : s.pins.underrun = none) : s.oracle = none := by
  rw [State.oracle, h]

theorem State.oracle_of_pin {k : Nat} (h : s.pins.underrun = some k) (hk : k < s.cfg.n)
    (hc : s.cfg.canUnderrun = true) : s.oracle = some k := by
  rw [State.oracle, h]
  exact if_pos ⟨hc, hk⟩

theorem State.oracle_lt {k : Nat} (h : s.oracle = some k) : k < s.cfg.n ∧ s.cfg.canUnderrun = true := by
  have hu := underOk_oracle s
  rwa [h] at hu

theorem State.oracle_of_not_canUnderrun (hc : s.cfg.canUnderrun = false) : s.oracle = none :=
  Option.eq_none_iff_forall_ne_some.2 fun _ hk => Bool.false_ne_true (hc.symm.trans (State.oracle_lt hk).2)

theorem exec_render_of_noLeadIn (h : s.cfg.lStart = 0) : exec .render s = s.startFrame s.oracle := by
  rw [exec_render, h, State.leadInFor_zero]

/-- Settles O24: the oracle's cases, and the lemmas about a lead-in and the start of a frame. -/
theorem renderBeginsItsFrame : Obligations.RenderBeginsItsFrame := by
  intro s hv
  refine ⟨decodeOfEncodeIsTheCommand .render, underOk_oracle s, State.oracle_of_not_canUnderrun, State.oracle_of_noPin,
    fun _ => State.oracle_of_pin, fun hlead => ?_, fun hlead hzero => ?_, fun hlead hpixel => ?_⟩
  · exact State.leadInFor_pos s hlead s.oracle
  · rw [exec_render_of_noLeadIn hlead, hzero]
    exact s.startFrame_zero
  · rw [exec_render_of_noLeadIn hlead]
    exact State.startFrame_pixel (Config.n_pos hv) hpixel

/-! The frame on the wire and the response. -/

/-- What a RENDER answers, beside the pixels it sends. -/
theorem State.render_cases (s : State) :
    s.oracle = none ∧ pixelsSent s.cfg s.oracle = s.cfg.n ∧
        renderAnswer s.cfg s.oracle = response .ok (BitVec.ofNat 24 s.cfg.n) ∨
      ∃ k, s.oracle = some k ∧ k < s.cfg.n ∧ pixelsSent s.cfg s.oracle = k ∧
        renderAnswer s.cfg s.oracle = response .timingViolation (BitVec.ofNat 24 k) := by
  cases ho : s.oracle with
  | none => exact .inl ⟨rfl, rfl, rfl⟩
  | some k => exact .inr ⟨k, rfl, (State.oracle_lt ho).1, rfl, rfl⟩

/-- From an accepting state of the invariant RENDER runs as its answer says. -/
theorem State.Inv.answers_render (hI : s.Inv) (ha : s.accepting) (hd : decode s.pins.cmdData = .ok .render)
    (hr : s.noReset (renderLen s.cfg s.oracle + 1)) : s.Answers (s.executed .render) := by
  have ⟨hv, _, hs, _⟩ := ha
  exact State.answers_render hv (hI.encoderIdle (by simp [hs])).idle hr (step_of_render ha hd)

/-- Settles O47: the run of `State.Inv.answers_render`, its waveform written out part by part. -/
theorem renderPutsItsFrameOnTheWire : Obligations.RenderPutsItsFrameOnTheWire := by
  intro s hI ha hd hr
  obtain ⟨t, u, hstep, hrun, hresp, hpix, hbright, hidle, -⟩ := hI.answers_render ha hd hr
  refine ⟨t, u, pixelsSent s.cfg s.oracle, renderAnswer s.cfg s.oracle, s.render_cases, hstep, ?_, hrun.txActive, hrun.run,
    hresp, hpix, hbright, hidle, Enc.dout_of_idle hidle⟩
  refine hrun.dout.trans ?_
  simp only [State.executed, renderWave, frameWave, List.append_assoc]

theorem risingEdges_renderWave {c : Config} (hv : c.valid) (ws : List WireWord) (under : Option Nat) :
    risingEdges false (renderWave c ws under) = 24 * (ws.take (pixelsSent c under)).length := by
  have hlow : risingEdges false (emit false (c.tLatch + c.tSettle + c.lEnd)) = 0 := by
    simpa [risingEdges] using risingEdges_emit_self false (c.tLatch + c.tSettle + c.lEnd) []
  rw [renderWave_eq, risingEdges_emit_self, frameWave, List.append_assoc, List.append_assoc, ← emit_add, ← emit_add,
    risingEdges_waveData hv, ← Nat.add_assoc, hlow, Nat.add_zero]

/-- The data field of a response holds every number of pixels. -/
theorem pixelCount_toNat {c : Config} (hv : c.valid) {m : Nat} (hm : m ≤ c.n) : (BitVec.ofNat 24 m).toNat = m := by
  have hn := Config.n_le hv
  rw [BitVec.toNat_ofNat]
  omega

theorem dataOf_renderAnswer {c : Config} {under : Option Nat} (hv : c.valid) (hu : underOk c under) :
    (dataOf (renderAnswer c under)).toNat = pixelsSent c under := by
  have hle := pixelsSent_le hu
  cases under with
  | none =>
    rw [renderAnswer, dataOf_response]
    exact pixelCount_toNat hv hle
  | some k =>
    rw [renderAnswer, Error.response, dataOf_response]
    exact pixelCount_toNat hv hle

/-- `OK` goes with all the pixels sent, `TIMING_VIOLATION` with fewer. -/
theorem State.statusOf_renderAnswer (s : State) :
    statusOf (renderAnswer s.cfg s.oracle) = 0x00 ∧ pixelsSent s.cfg s.oracle = s.cfg.n ∨
      statusOf (renderAnswer s.cfg s.oracle) = 0x02 ∧ pixelsSent s.cfg s.oracle < s.cfg.n := by
  rcases s.render_cases with ⟨-, hm, hanswer⟩ | ⟨k, -, hk, hm, hanswer⟩
  · exact .inl ⟨hanswer ▸ statusOf_response _ _, hm⟩
  · exact .inr ⟨hanswer ▸ statusOf_response _ _, hm ▸ hk⟩

/-- Settles O48: the response's data is the number of pixels sent (`dataOf_renderAnswer`), and each of those gives 24 rising
edges (`risingEdges_renderWave`). -/
theorem okMeansExactlyNPixels : Obligations.OkMeansExactlyNPixels := by
  intro s hI ha hd hr
  have hv := hI.1
  have hu := underOk_oracle s
  obtain ⟨t, u, hstep, hrun, hresp, -⟩ := hI.answers_render ha hd hr
  have hdata := dataOf_renderAnswer hv hu
  have hwave : trace State.dout (renderLen s.cfg s.oracle) t = renderWave s.cfg s.wireWords s.oracle := hrun.dout
  refine ⟨t, u, renderAnswer s.cfg s.oracle, hstep, hrun.run, hresp, ?_, ?_⟩
  · rw [hdata]
    exact s.statusOf_renderAnswer
  · rw [hwave, risingEdges_renderWave hv, State.take_wireWords_length (pixelsSent_le hu), hdata]

/-! The latch gap (R100, R101, R105). -/

/-- A trace shows in its cycle `j` the output of the state `j` edges on. -/
theorem trace_getElem? (out : State → Bool) {j k : Nat} (hj : j < k) (s : State) :
    (trace out k s)[j]? = (runFor j s).map out := by
  induction k generalizing j s with
  | zero => exact absurd hj (Nat.not_lt_zero j)
  | succ k ih =>
    cases j with
    | zero => rfl
    | succ j =>
      cases hs : step s with
      | next t => rw [trace_succ hs, runFor_succ hs, List.getElem?_cons_succ, ih (Nat.lt_of_succ_lt_succ hj)]
      | fault r => simp [trace, runFor, hs]
      | refused r => simp [trace, runFor, hs]

/-- Where a run's trace is low throughout, the output is low in the state of each cycle. -/
theorem map_runFor_of_trace_low {out : State → Bool} {j k : Nat} (h : trace out k s = emit false k) (hj : j < k) :
    (runFor j s).map out = some false := by
  rw [← trace_getElem? out hj, h, emit_getElem?, if_pos hj]

/-- In a BUSY run that keeps the wire low, every cycle has all four output pins low. -/
theorem BusyRun.pins_low {j k : Nat} {u : State} (h : BusyRun k s u (emit false k) (emit false k)) (hj : j < k) :
    ∃ t, runFor j s = some t ∧ t.dout = false ∧ t.txActive = false ∧ t.cmdReady = false ∧ t.rspValid = false := by
  obtain ⟨t, ht, hdout⟩ := Option.map_eq_some_iff.1 (map_runFor_of_trace_low h.dout hj)
  have hlow : ∀ {out : State → Bool}, trace out k s = emit false k → out t = false := fun htrace => by
    simpa [ht] using map_runFor_of_trace_low htrace hj
  exact ⟨t, ht, hdout, hlow h.txActive, hlow h.cmdReady, hlow h.rspValid⟩

/-- Only while a RENDER sends is the encoder out of `IDLE`. -/
theorem State.Inv.sending_of_not_idle (hI : s.Inv) (h : s.enc.phase ≠ .idle) :
    ∃ under, s.hs = .busy (.sending under) := by
  by_contra hnot
  exact h (hI.encoderIdle fun under hs => hnot ⟨under, hs⟩).idle

/-- Settles O49: from the first cycle of the latch gap the encoder's run is `Enc.sends_latch`, and the machine shows it. -/
theorem latchGapIsNeverCut : Obligations.LatchGapIsNeverCut := by
  intro s hI hlatch hcnt hr
  have hbusy : s.enc.phase ≠ .idle := by simp [hlatch]
  obtain ⟨under, hs⟩ := hI.sending_of_not_idle hbusy
  obtain ⟨f, hf, hsends⟩ := Enc.sends_latch (under := under) (word := s.wireWord?) hI.1 hlatch hcnt
  have hrun := sending_run hsends hf hbusy hI.1 (by rwa [emit_length]) hs rfl rfl rfl
  rw [emit_length] at hrun
  exact ⟨fun j hj => hrun.pins_low hj, _, hrun.run, hf, Enc.dout_of_idle hf⟩

end Sys2Proof.Machine
end

section
/-! The channels of a colour as integers, read back from `rgbOf` (30_encoding R61, 00_scope R9). -/

namespace Sys2Proof

@[simp] theorem red_rgbOf (r g b : Channel) : red (rgbOf r g b) = r := by
  rw [red, rgbOf, BitVec.append_assoc]
  exact BitVec.extractLsb'_append_eq_left

@[simp] theorem green_rgbOf (r g b : Channel) : green (rgbOf r g b) = g := by
  rw [green, rgbOf, BitVec.extractLsb'_append_eq_of_le (by decide)]
  exact BitVec.extractLsb'_append_eq_right

@[simp] theorem blue_rgbOf (r g b : Channel) : blue (rgbOf r g b) = b :=
  BitVec.extractLsb'_append_eq_right

theorem channelOfInt_zero : channelOfInt 0 = 0 := rfl

/-- The three channels of a colour are these integers. -/
def HasChannels (c : Colour) (r g b : Int) : Prop :=
  ((red c).toNat : Int) = r ∧ ((green c).toNat : Int) = g ∧ ((blue c).toNat : Int) = b

variable {c c' : Colour} {r g b r' g' b' : Int}

theorem hasChannels_rgbOf (hr : 0 ≤ r ∧ r ≤ 255) (hg : 0 ≤ g ∧ g ≤ 255) (hb : 0 ≤ b ∧ b ≤ 255) :
    HasChannels (rgbOf (channelOfInt r) (channelOfInt g) (channelOfInt b)) r g b := by
  rw [HasChannels, red_rgbOf, green_rgbOf, blue_rgbOf]
  exact ⟨channelOfInt_toNat hr.1 hr.2, channelOfInt_toNat hg.1 hg.2, channelOfInt_toNat hb.1 hb.2⟩

/-- How far the channels of two colours lie apart. -/
theorem HasChannels.dist {x y z : Nat} (h : HasChannels c r g b) (h' : HasChannels c' r' g' b')
    (hx : (r - r').natAbs = x) (hy : (g - g').natAbs = y) (hz : (b - b').natAbs = z) :
    [Nat.dist (red c).toNat (red c').toNat, Nat.dist (green c).toNat (green c').toNat,
      Nat.dist (blue c).toNat (blue c').toNat] = [x, y, z] := by
  obtain ⟨hr, hg, hb⟩ := h
  obtain ⟨hr', hg', hb'⟩ := h'
  simp only [Nat.dist, List.cons.injEq, and_true]
  omega

end Sys2Proof
end

section
/-! The colour wheel, its table, the host's hue offset and WHEEL (43_color_wheel R120 to R124). Neighbouring bands agree on
the position where they meet, so each band's ramps hold on a CLOSED interval, and a position and the next one always lie in
one band. -/

namespace Sys2Proof.Machine

variable {p : Int}

theorem wheel_of_outside (h : p < 0 ∨ 255 < p) : wheel p = 0 := if_pos h

/-! The three bands, both ends included. -/

theorem wheel_red_to_green (hlo : 0 ≤ p) (hhi : p ≤ 85) : HasChannels (wheel p) (255 - 3 * p) (3 * p) 0 := by
  rcases hhi.lt_or_eq with hlt | rfl
  · rw [wheel, if_neg (by omega), if_pos hlt, ← channelOfInt_zero]
    exact hasChannels_rgbOf (by omega) (by omega) (by decide)
  · exact ⟨rfl, rfl, rfl⟩

theorem wheel_green_to_blue (hlo : 85 ≤ p) (hhi : p ≤ 170) :
    HasChannels (wheel p) 0 (255 - 3 * (p - 85)) (3 * (p - 85)) := by
  rcases hhi.lt_or_eq with hlt | rfl
  · rw [wheel, if_neg (by omega), if_neg (by omega), if_pos hlt, ← channelOfInt_zero]
    exact hasChannels_rgbOf (by decide) (by omega) (by omega)
  · exact ⟨rfl, rfl, rfl⟩

theorem wheel_blue_to_red (hlo : 170 ≤ p) (hhi : p ≤ 255) :
    HasChannels (wheel p) (3 * (p - 170)) 0 (255 - 3 * (p - 170)) := by
  rw [wheel, if_neg (by omega), if_neg (by omega), if_neg (by omega), ← channelOfInt_zero]
  exact hasChannels_rgbOf (by omega) (by decide) (by omega)

/-- Settles O36, band by band. -/
theorem wheelFollowsItsFormula : Obligations.WheelFollowsItsFormula := by
  refine fun p => ⟨wheel_of_outside, fun hlo hhi => ?_, fun hlo hhi => ?_, fun hlo hhi => ?_⟩
  · obtain ⟨hr, hg, hb⟩ := wheel_red_to_green hlo hhi.le
    exact ⟨hr, hg, Int.ofNat_eq_zero.1 hb⟩
  · obtain ⟨hr, hg, hb⟩ := wheel_green_to_blue hlo hhi.le
    exact ⟨Int.ofNat_eq_zero.1 hr, hg, hb⟩
  · obtain ⟨hr, hg, hb⟩ := wheel_blue_to_red hlo hhi
    exact ⟨hr, Int.ofNat_eq_zero.1 hg, hb⟩

/-- Every position of the wheel lies in one of the bands. -/
theorem wheel_band (hlo : 0 ≤ p) (hhi : p ≤ 255) :
    (p ≤ 85 ∧ HasChannels (wheel p) (255 - 3 * p) (3 * p) 0) ∨
      (85 ≤ p ∧ p ≤ 170 ∧ HasChannels (wheel p) 0 (255 - 3 * (p - 85)) (3 * (p - 85))) ∨
        (170 ≤ p ∧ HasChannels (wheel p) (3 * (p - 170)) 0 (255 - 3 * (p - 170))) := by
  rcases le_total p 85 with h85 | h85
  · exact .inl ⟨h85, wheel_red_to_green hlo h85⟩
  rcases le_total p 170 with h170 | h170
  · exact .inr (.inl ⟨h85, h170, wheel_green_to_blue h85 h170⟩)
  · exact .inr (.inr ⟨h170, wheel_blue_to_red h170 hhi⟩)

/-- R122 b: full intensity is shared out among at most two channels, in multiples of 3. -/
theorem wheel_channels (hlo : 0 ≤ p) (hhi : p ≤ 255) :
    (red (wheel p)).toNat + (green (wheel p)).toNat + (blue (wheel p)).toNat = 255 ∧
      ((red (wheel p)).toNat = 0 ∨ (green (wheel p)).toNat = 0 ∨ (blue (wheel p)).toNat = 0) ∧
      (red (wheel p)).toNat % 3 = 0 ∧ (green (wheel p)).toNat % 3 = 0 ∧ (blue (wheel p)).toNat % 3 = 0 := by
  rcases wheel_band hlo hhi with ⟨-, hr, hg, hb⟩ | ⟨-, -, hr, hg, hb⟩ | ⟨-, hr, hg, hb⟩
  · omega
  · omega
  · omega

/-- A position of the wheel is not black: its channels sum to 255. -/
theorem wheel_ne_black (hlo : 0 ≤ p) (hhi : p ≤ 255) : wheel p ≠ 0 := by
  intro hblack
  obtain ⟨hsum, -⟩ := wheel_channels hlo hhi
  rw [hblack] at hsum
  exact absurd hsum (by decide)

/-- R122 c: a position and the next one lie in one closed band, where one channel falls by 3 and another rises by 3. -/
theorem wheel_step (hlo : 0 ≤ p) (hhi : p < 255) :
    [Nat.dist (red (wheel p)).toNat (red (wheel (p + 1))).toNat,
      Nat.dist (green (wheel p)).toNat (green (wheel (p + 1))).toNat,
      Nat.dist (blue (wheel p)).toNat (blue (wheel (p + 1))).toNat].Perm [0, 3, 3] := by
  rcases lt_or_ge p 85 with h85 | h85
  · rw [(wheel_red_to_green hlo h85.le).dist (wheel_red_to_green (by omega) h85) (x := 3) (y := 3) (z := 0)
      (by omega) (by omega) (by omega)]
    decide
  rcases lt_or_ge p 170 with h170 | h170
  · rw [(wheel_green_to_blue h85 h170.le).dist (wheel_green_to_blue (by omega) h170) (x := 0) (y := 3) (z := 3)
      (by omega) (by omega) (by omega)]
  · rw [(wheel_blue_to_red h170 hhi.le).dist (wheel_blue_to_red (by omega) hhi) (x := 3) (y := 0) (z := 3)
      (by omega) (by omega) (by omega)]
    decide

/-- R122 f: the channels give the position back, but for the two ends. -/
theorem wheel_injective_but_ends {q : Int} (hp : 0 ≤ p) (hpq : p < q) (hq : q ≤ 255) (h : wheel p = wheel q) :
    p = 0 ∧ q = 255 := by
  have hbandq := wheel_band (hp.trans hpq.le) hq
  rw [← h] at hbandq
  unfold HasChannels at hbandq
  rcases wheel_band hp (hpq.le.trans hq) with ⟨hle, hr, hg, hb⟩ | ⟨hge, hle, hr, hg, hb⟩ | ⟨hge, hr, hg, hb⟩
  · omega
  · omega
  · omega

/-- Settles O37: the anchors are computed, the rest is said of every position by its band. -/
theorem wheelIsContinuousAndCloses : Obligations.WheelIsContinuousAndCloses := by
  refine ⟨by decide, fun p hlo hhi => ?_, fun p hlo hhi => wheel_step hlo hhi, by decide, wheel_of_outside (by decide),
    fun p q => wheel_injective_but_ends⟩
  obtain ⟨hsum, hzero, hr, hg, hb⟩ := wheel_channels hlo hhi
  exact ⟨hsum, hzero, hr, hg, hb, wheel_ne_black hlo hhi⟩

/-! The host's hue offset. -/

theorem hueOffset_lt (n index phase : Nat) : hueOffset n index phase < 256 := Nat.mod_lt _ (by decide)

/-- Settles O39: a remainder by 256 is a position of the wheel, and none is black. -/
theorem hueOffsetIsNeverBlack : Obligations.HueOffsetIsNeverBlack := by
  intro n index phase
  have hlt := hueOffset_lt n index phase
  exact ⟨hlt, wheel_ne_black (by omega) (by omega)⟩

/-! WHEEL. -/

/-- Settles O25: the command's word by `decodeOfEncodeIsTheCommand`, WHEEL's own rule by `exec_eq_busy`. -/
theorem wheelAnswersTheWheelColour : Obligations.WheelAnswersTheWheelColour :=
  fun _ pos hv =>
    ⟨decodeOfEncodeIsTheCommand (.wheel pos), exec_eq_busy hv (by simp) (by simp [indexOf]), wheel_of_outside⟩

/-! The table. -/

/-- The formula's colours of `len` positions from `start` on. -/
def wheelSegment (start len : Nat) : List Colour := (List.range' start len).map fun k : Nat => wheel k

theorem wheelSegment_append {start len next : Nat} (h : start + len = next) (len' : Nat) :
    wheelSegment start len ++ wheelSegment next len' = wheelSegment start (len + len') := by
  subst h
  rw [wheelSegment, wheelSegment, ← List.map_append, List.range'_append_1, wheelSegment]

/-- The spec's entries against the formula, 32 at a time. -/
theorem wheelTable_segments :
    wheelTable0 = wheelSegment 0 32 ∧ wheelTable1 = wheelSegment 32 32 ∧ wheelTable2 = wheelSegment 64 32 ∧
      wheelTable3 = wheelSegment 96 32 ∧ wheelTable4 = wheelSegment 128 32 ∧ wheelTable5 = wheelSegment 160 32 ∧
      wheelTable6 = wheelSegment 192 32 ∧ wheelTable7 = wheelSegment 224 32 := by
  refine ⟨?_, ?_, ?_, ?_, ?_, ?_, ?_, ?_⟩ <;> decide

theorem wheelTable_eq_segment : wheelTable = wheelSegment 0 256 := by
  obtain ⟨h0, h1, h2, h3, h4, h5, h6, h7⟩ := wheelTable_segments
  simp only [wheelTable, h0, h1, h2, h3, h4, h5, h6, h7, wheelSegment_append, Nat.reduceAdd]

/-- Settles O38: the table is the formula's segment of the positions 0 to 255. -/
theorem wheelTableIsTheFormula : Obligations.WheelTableIsTheFormula := by
  rw [Obligations.WheelTableIsTheFormula, wheelTable_eq_segment]
  refine ⟨by simp [wheelSegment], fun k => by simp [wheelSegment], fun p h => ?_⟩
  rw [wheelByTable, if_pos h, wheel_of_outside h]

end Sys2Proof.Machine
end

section
/-! Illegal words (60_exceptions R133, 30_encoding R68): the rows of the opcode table cover the commands, so a word that
matches no row is no command's; and the edge that accepts it only sets the handshake. -/

namespace Sys2Proof.Machine

/-- Every command has its row in the opcode table. -/
theorem exists_row_of_instr (i : Instr) : ∃ r ∈ opcodeTable, i.mnemonic = r.mnemonic := by
  cases i with
  | set | fill | setbr | snap | setp | render | wheel =>
    dsimp only [Instr.mnemonic]
    decide

/-- A word is illegal iff no row of the opcode table matches it. -/
theorem decode_error_iff_no_match (w : CommandWord) :
    (∃ e, decode w = .error e) ↔ ∀ r ∈ opcodeTable, r.matches w = false := by
  constructor
  · rintro ⟨e, he⟩ r hr
    rw [Bool.eq_false_iff, ne_eq, matches_iff_decode hr]
    simp [he]
  · intro hnone
    cases hd : decode w with
    | error e => exact ⟨e, rfl⟩
    | ok i =>
      obtain ⟨r, hr, hmn⟩ := exists_row_of_instr i
      have hmatch : r.matches w = true := (matches_iff_decode hr).2 ⟨i, hd, hmn⟩
      simp [hnone r hr] at hmatch

/-- The edge that accepts an illegal word begins the BUSY cycles before its answer, and that is all. -/
theorem step_of_illegal {s : State} {e : Illegal} (ha : s.accepting) (hd : decode s.pins.cmdData = .error e) :
    step s = .next (s.setHs (.busy (.finishing s.cfg.latency.illegal Error.illegalCommand.response))).advance := by
  obtain ⟨-, -, -, -, -, -, -, hlat⟩ := Config.latency_valid ha.1
  rw [step_of_not_render ha (by simp [hd]), State.answer_of_error hd, State.finishWith, silent,
    State.finishIn_pos _ _ hlat]
  rfl

/-- Settles O17: `decode_error_iff_no_match`, and the state `step_of_illegal` gives differs from `s` in `HS` and in the
clk cycle only. -/
theorem illegalWordIsAnsweredAndChangesNothing : Obligations.IllegalWordIsAnsweredAndChangesNothing :=
  ⟨decode_error_iff_no_match, rfl, fun _ _ ha hd => ⟨_, step_of_illegal ha hd, rfl, rfl, rfl, rfl, rfl, rfl, rfl⟩⟩

end Sys2Proof.Machine
end

section
/-! Reset, and the host that takes no response (70_reset_and_hazards R151 to R153, R156). -/

namespace Sys2Proof.Machine

variable {s t : State} {k : Nat}

/-! Reset. -/

theorem step_eq_next_of_reset (hr : s.pins.rst = true) (h : step s = .next t) : t = s.resetEdge.advance := by
  obtain ⟨-, ⟨-, ht⟩ | ⟨hlow, -⟩⟩ := step_eq_next h
  · exact ht
  · exact absurd hr (by simp [hlow])

theorem State.resetEdge_dout (s : State) : s.resetEdge.dout = false := Enc.dout_of_idle rfl

theorem State.resetEdge_txActive (s : State) : s.resetEdge.txActive = false := Enc.txActive_of_idle rfl

/-- Settles O52: the step is `step_of_reset`, and the pins read the idle encoder and the BUSY handshake it leaves. -/
theorem resetTakesEveryStateToItsResetValue : Obligations.ResetTakesEveryStateToItsResetValue := fun s hv hr =>
  ⟨_, step_of_reset hv hr, Memory.read_nil, rfl, rfl, s.resetEdge_dout, s.resetEdge_txActive, rfl, rfl, rfl, rfl⟩

/-- Settles O53: the hold after a reset edge is `resetHold_run`, a BUSY run whose wire stays as low as the reset edge left
it, and it touches neither `PIX` nor `BRIGHT`. -/
theorem resetHoldKeepsThePortClosed : Obligations.ResetHoldKeepsThePortClosed := by
  intro s t hv hr hstep hlow
  obtain rfl := step_eq_next_of_reset hr hstep
  have hrun := resetHold_run (s := s.resetEdge.advance) hv hlow rfl
  have hdout : s.resetEdge.advance.dout = false := s.resetEdge_dout
  have htx : s.resetEdge.advance.txActive = false := s.resetEdge_txActive
  rw [hdout, htx] at hrun
  refine ⟨fun j hj => ?_, _, hrun.run, rfl, rfl, Memory.read_nil, rfl⟩
  obtain ⟨u, hu, hudout, hutx, hready, hvalid⟩ := hrun.pins_low (Nat.lt_succ_of_le hj)
  exact ⟨u, hu, hready, hudout, hvalid, hutx⟩

/-! A host that takes no response. -/

/-- A host that takes nothing at the next edge has `rsp_ready` low now. -/
theorem State.noTake_now (h : s.noTake (k + 1)) : s.pins.rspReady = false := by
  cases hi : s.inputs with
  | nil => simp [State.pins, hi, Pins.quiet]
  | cons p ps => simpa [State.pins, hi] using h p (by simp [hi])

theorem State.noTake_advance (h : s.noTake (k + 1)) : s.advance.noTake k := by
  intro p hp
  rw [State.advance_inputs, ← List.drop_one, List.take_drop, Nat.add_comm] at hp
  exact h p (List.mem_of_mem_drop hp)

/-- While the host takes nothing, a waiting response and all else stand, and only clk cycles go by. -/
theorem waiting_run {r : ResponseWord} (hv : s.cfg.valid) (hs : s.hs = .resp r) (hr : s.noReset k) (ht : s.noTake k) :
    runFor k s = some (s.after k s.enc (.resp r)) := by
  induction k generalizing s with
  | zero => rw [← hs, State.after_self, runFor_zero]
  | succ k ih =>
    have hstep := step_of_resp_waiting hv (State.noReset_now hr) hs (State.noTake_now ht)
    rw [runFor_succ hstep, ih (s := s.advance) hv hs (State.noReset_step hr hstep) (State.noTake_advance ht),
      State.advance_eq_after, State.after_after, State.after_enc, Nat.add_comm]

/-- Settles O16: after the cycles of `waiting_run` the state is the waiting one, whose encoder the invariant has idle. -/
theorem hostThatTakesNothingStallsLpe : Obligations.HostThatTakesNothingStallsLpe := by
  intro s r k hI hs hr ht
  have hidle := hI.encoderIdle (by simp [hs])
  exact ⟨_, waiting_run hI.1 hs hr ht, rfl, rfl, Enc.dout_of_idle hidle.idle, rfl, rfl⟩

end Sys2Proof.Machine
end
